-- ==== Sys2Proof/Word.lean ====
section
/-! DEFINITION. The words of the machine (00_scope.md R9, 10_state.md, 30_encoding.md R51, R52). Bit 0 is the least
significant bit; every value is unsigned. A bit vector stands only for what the spec treats as bits. -/

namespace Sys2Proof

/-- A byte: a general register, a memory byte, a timer, an immediate `kk`. -/
abbrev Byte := BitVec 8

/-- A 16-bit word: an instruction word, `pc`, `I`, a call stack entry. -/
abbrev Word := BitVec 16

/-- A 4-bit nibble of an instruction word (R51). -/
abbrev Nibble := BitVec 4

/-- The 12-bit immediate address `nnn` (R52). -/
abbrev Imm12 := BitVec 12

/-- The number of a general register, the fields `x` and `y`: in range by construction (R10, R52). -/
abbrev RegIdx := Fin 16

/-- The field `n` of `Dxyn`: the number of sprite rows, 0 to 15 (R52). -/
abbrev RowCount := Fin 16

end Sys2Proof
end

