-- ==== Sys2Proof/Config.lean ====
section
/-! DEFINITION. The parameters of 00_scope.md R8: the sizes the spec fixes, as named constants, and the two OPEN values
that no rule fixes, as opaque constants about which nothing can be proved. (The third OPEN parameter, the program
image, is the argument of `Machine.load`.) -/

namespace Sys2Proof.Config

/-- `MEM_SIZE`: bytes of memory, addresses 0x000 to 0xFFF (R8, R30). -/
abbrev memSize : Nat := 4096

/-- `PROG_BASE`: the first address of the loaded program and the reset value of `pc` (R8). -/
abbrev progBase : Nat := 0x200

/-- The last address an instruction can be fetched from (R36). -/
abbrev lastFetch : Nat := 0x0FFE

/-- `MAX_IMAGE`: the longest program image, 4096 - 0x200 bytes (R8, R131). -/
abbrev maxImage : Nat := 3584

/-- `GLYPH_BASE`: the first address of the glyph table (R8, R31). -/
abbrev glyphBase : Nat := 0x050

/-- `GLYPH_END`: the address after the glyph table (R8, R31). -/
abbrev glyphEnd : Nat := 0x0A0

/-- `STACK_DEPTH`: entries of the call stack (R8, R14). -/
abbrev stackDepth : Nat := 16

/-- `TIMER_RESET`: the reset value of both timers (R8, R16, R17). -/
abbrev timerReset : Byte := 0xFF#8

/-- `DISP_W`: columns of the display (R8, R18). -/
abbrev dispW : Nat := 64

/-- `DISP_H`: rows of the display (R8, R18). -/
abbrev dispH : Nat := 32

/-- `FLAG_REG`: the number of the flag register (R8, R11). -/
abbrev flagReg : RegIdx := 0xF

/-- `GLYPH_TABLE`, OPEN (R8, R32, D10): byte `k` of the glyph table, `k` from 0 to 79. The source never gives the bytes, so
the constant has no body: a claim holds for every table. DESIGN CHOICE of form, safe: log entry 2. -/
opaque glyphByte : Nat → Byte

/-- `rand`, OPEN (R8, R21, D11): the byte the host presents for the `k`-th draw. It has no body: a claim holds for every
sequence of draws. DESIGN CHOICE of form, safe: log entry 1. -/
opaque randByte : Nat → Byte

end Sys2Proof.Config
end

