-- ==== Sys2Proof/Syntax.lean ====
section
/-! DEFINITION. The instruction set of 30_encoding.md R55: one constructor per row of the opcode map, in its order, with the
operand fields of R52 (`x`, `y` register numbers, `n` a row count, `kk` a byte, `nnn` a 12-bit address). -/

namespace Sys2Proof

/-- The 23 instructions (R55). -/
inductive Instr where
  /-- `00E0` clear (R101) -/
  | clear
  /-- `00EE` return (R71) -/
  | ret
  /-- `1nnn` jump (R72) -/
  | jump (nnn : Imm12)
  /-- `2nnn` call (R73) -/
  | call (nnn : Imm12)
  /-- `3xkk` skip-if-equal-immediate (R76) -/
  | skipEqImm (x : RegIdx) (kk : Byte)
  /-- `4xkk` skip-if-not-equal-immediate (R77) -/
  | skipNeImm (x : RegIdx) (kk : Byte)
  /-- `5xy0` skip-if-registers-equal (R78) -/
  | skipEqReg (x y : RegIdx)
  /-- `6xkk` load-immediate (R81) -/
  | loadImm (x : RegIdx) (kk : Byte)
  /-- `7xkk` add-immediate (R82) -/
  | addImm (x : RegIdx) (kk : Byte)
  /-- `8xy0` copy (R83) -/
  | copy (x y : RegIdx)
  /-- `8xy1` or (R84) -/
  | orReg (x y : RegIdx)
  /-- `8xy2` and (R85) -/
  | andReg (x y : RegIdx)
  /-- `8xy3` xor (R86) -/
  | xorReg (x y : RegIdx)
  /-- `8xy4` add-with-carry (R87) -/
  | addCarry (x y : RegIdx)
  /-- `8xy5` sub-with-borrow (R88) -/
  | subBorrow (x y : RegIdx)
  /-- `8xy6` shift-right (R89); `y` is encoded and ignored -/
  | shiftRight (x y : RegIdx)
  /-- `8xy7` subn-with-borrow (R90) -/
  | subnBorrow (x y : RegIdx)
  /-- `8xyE` shift-left (R91); `y` is encoded and ignored -/
  | shiftLeft (x y : RegIdx)
  /-- `9xy0` skip-if-registers-not-equal (R79) -/
  | skipNeReg (x y : RegIdx)
  /-- `Annn` load-index (R100) -/
  | loadIndex (nnn : Imm12)
  /-- `Bnnn` jump-offset (R74) -/
  | jumpOffset (nnn : Imm12)
  /-- `Cxkk` random-and (R92) -/
  | randomAnd (x : RegIdx) (kk : Byte)
  /-- `Dxyn` draw-sprite (R102) -/
  | drawSprite (x y : RegIdx) (n : RowCount)
  deriving DecidableEq, Repr

end Sys2Proof
end

