-- ==== Sys2Proof/Decode.lean ====
section
/-! DEFINITION. The decoder of 30_encoding.md R56, total on any word and on any bytes, refusing by name, and after it the
encoder, written from the formats of R53. Decoding reads only the word (R56). -/

namespace Sys2Proof

/-- Why bytes or a word do not decode. -/
inductive DecodeError where
  /-- fewer than the two bytes of an instruction (R50) -/
  | truncated
  /-- the word matches none of the 23 patterns (R57) -/
  | invalidOpcode (w : Word)
  deriving DecidableEq, Repr

/-- `n0 = w[15:12]` (R51). -/
def nibble0 (w : Word) : Nibble := w.extractLsb' 12 4

/-- `n1 = w[11:8]` (R51). -/
def nibble1 (w : Word) : Nibble := w.extractLsb' 8 4

/-- `n2 = w[7:4]` (R51). -/
def nibble2 (w : Word) : Nibble := w.extractLsb' 4 4

/-- `n3 = w[3:0]` (R51). -/
def nibble3 (w : Word) : Nibble := w.extractLsb' 0 4

/-- The register number a nibble selects (R52). -/
def nibbleReg (v : Nibble) : RegIdx := v.toFin

/-- The field `x = n1` (R52). -/
def fieldX (w : Word) : RegIdx := nibbleReg (nibble1 w)

/-- The field `y = n2` (R52). -/
def fieldY (w : Word) : RegIdx := nibbleReg (nibble2 w)

/-- The field `n = n3` (R52). -/
def fieldN (w : Word) : RowCount := (nibble3 w).toFin

/-- The field `kk = n2 : n3`, by concatenation (R52, R54). -/
def fieldKK (w : Word) : Byte := nibble2 w ++ nibble3 w

/-- The field `nnn = n1 : n2 : n3`, by concatenation (R52, R54). -/
def fieldNNN (w : Word) : Imm12 := nibble1 w ++ nibble2 w ++ nibble3 w

/-- The words of first nibble 0: `00E0` and `00EE`, every other one is invalid (R56, R57). -/
def decodeZero (w : Word) : Except DecodeError Instr :=
  if w = 0x00E0#16 then .ok .clear
  else if w = 0x00EE#16 then .ok .ret
  else .error (.invalidOpcode w)

/-- The words of first nibble 8, by the function nibble `n3` (R56). -/
def decodeAlu (w : Word) : Except DecodeError Instr :=
  match nibble3 w with
  | 0x0#4 => .ok (.copy (fieldX w) (fieldY w))
  | 0x1#4 => .ok (.orReg (fieldX w) (fieldY w))
  | 0x2#4 => .ok (.andReg (fieldX w) (fieldY w))
  | 0x3#4 => .ok (.xorReg (fieldX w) (fieldY w))
  | 0x4#4 => .ok (.addCarry (fieldX w) (fieldY w))
  | 0x5#4 => .ok (.subBorrow (fieldX w) (fieldY w))
  | 0x6#4 => .ok (.shiftRight (fieldX w) (fieldY w))
  | 0x7#4 => .ok (.subnBorrow (fieldX w) (fieldY w))
  | 0xE#4 => .ok (.shiftLeft (fieldX w) (fieldY w))
  | _ => .error (.invalidOpcode w)

/-- The words of first nibble 5 or 9: a register pair and a last nibble of 0; any other last nibble is invalid (R56, R57). -/
def decodePair (mk : RegIdx → RegIdx → Instr) (w : Word) : Except DecodeError Instr :=
  if nibble3 w = 0x0#4 then .ok (mk (fieldX w) (fieldY w)) else .error (.invalidOpcode w)

/-- The decoder by `n0` (R56). First nibbles 0xE and 0xF are invalid (R57). -/
def decodeWord (w : Word) : Except DecodeError Instr :=
  match nibble0 w with
  | 0x0#4 => decodeZero w
  | 0x1#4 => .ok (.jump (fieldNNN w))
  | 0x2#4 => .ok (.call (fieldNNN w))
  | 0x3#4 => .ok (.skipEqImm (fieldX w) (fieldKK w))
  | 0x4#4 => .ok (.skipNeImm (fieldX w) (fieldKK w))
  | 0x5#4 => decodePair .skipEqReg w
  | 0x6#4 => .ok (.loadImm (fieldX w) (fieldKK w))
  | 0x7#4 => .ok (.addImm (fieldX w) (fieldKK w))
  | 0x8#4 => decodeAlu w
  | 0x9#4 => decodePair .skipNeReg w
  | 0xA#4 => .ok (.loadIndex (fieldNNN w))
  | 0xB#4 => .ok (.jumpOffset (fieldNNN w))
  | 0xC#4 => .ok (.randomAnd (fieldX w) (fieldKK w))
  | 0xD#4 => .ok (.drawSprite (fieldX w) (fieldY w) (fieldN w))
  | _ => .error (.invalidOpcode w)

/-- The word of two consecutive bytes, the byte at the lower address in bits 15 to 8 (R33, R35). -/
def wordOfBytes (hi lo : Byte) : Word := hi ++ lo

/-- The two bytes of a word as they lie in memory, the high byte first (R35). -/
def bytesOfWord (w : Word) : List Byte := [w.extractLsb' 8 8, w.extractLsb' 0 8]

/-- Decoding from bytes: the instruction of the first two bytes and the rest of the list (R50, R35). -/
def decode : List Byte → Except DecodeError (Instr × List Byte)
  | hi :: lo :: rest => (decodeWord (wordOfBytes hi lo)).map (fun i => (i, rest))
  | _ => .error .truncated

/-- The nibble of a register number (R52). -/
def regNibble (x : RegIdx) : Nibble := BitVec.ofFin x

/-- Format A: opcode and address (R53). -/
def formatA (op : Nibble) (nnn : Imm12) : Word := op ++ nnn

/-- Format I: opcode, register, immediate (R53). -/
def formatI (op : Nibble) (x : RegIdx) (kk : Byte) : Word := op ++ regNibble x ++ kk

/-- Format R: opcode, register, register, function (R53). -/
def formatR (op : Nibble) (x y : RegIdx) (f : Nibble) : Word := op ++ regNibble x ++ regNibble y ++ f

/-- Format S: literal D, registers, row count (R53). -/
def formatS (x y : RegIdx) (n : RowCount) : Word := formatR 0xD#4 x y (BitVec.ofFin n)

/-- The word of an instruction (R53, R55). -/
def encode : Instr → Word
  | .clear => 0x00E0#16
  | .ret => 0x00EE#16
  | .jump nnn => formatA 0x1#4 nnn
  | .call nnn => formatA 0x2#4 nnn
  | .skipEqImm x kk => formatI 0x3#4 x kk
  | .skipNeImm x kk => formatI 0x4#4 x kk
  | .skipEqReg x y => formatR 0x5#4 x y 0x0#4
  | .loadImm x kk => formatI 0x6#4 x kk
  | .addImm x kk => formatI 0x7#4 x kk
  | .copy x y => formatR 0x8#4 x y 0x0#4
  | .orReg x y => formatR 0x8#4 x y 0x1#4
  | .andReg x y => formatR 0x8#4 x y 0x2#4
  | .xorReg x y => formatR 0x8#4 x y 0x3#4
  | .addCarry x y => formatR 0x8#4 x y 0x4#4
  | .subBorrow x y => formatR 0x8#4 x y 0x5#4
  | .shiftRight x y => formatR 0x8#4 x y 0x6#4
  | .subnBorrow x y => formatR 0x8#4 x y 0x7#4
  | .shiftLeft x y => formatR 0x8#4 x y 0xE#4
  | .skipNeReg x y => formatR 0x9#4 x y 0x0#4
  | .loadIndex nnn => formatA 0xA#4 nnn
  | .jumpOffset nnn => formatA 0xB#4 nnn
  | .randomAnd x kk => formatI 0xC#4 x kk
  | .drawSprite x y n => formatS x y n

/-- The bytes of an instruction as the hardware stores them (R35, R50). -/
def encodeBytes (i : Instr) : List Byte := bytesOfWord (encode i)

/-- The word whose bits are `w`, bit 0 the least significant bit of the first word; bits at and above `nbits` are 0, and the
instruction is one word of 16 bits (R50). -/
def tableWord (nbits w : Nat) : Word := BitVec.ofNat 16 (w % 2 ^ nbits)

/-- The instruction the decoder reads from the word `w` of the opcode table, laid out as the hardware stores it. -/
def decodeTableWord (nbits w : Nat) : Option Instr :=
  match decode (bytesOfWord (tableWord nbits w)) with
  | .ok (i, _) => some i
  | .error _ => none

end Sys2Proof
end

