-- ==== Sys2Proof/Machine/State.lean ====
section
/-! DEFINITION. The architectural state of 10_state.md (R10 to R20; R23: it is all the state there is), the fault record of
R20, why a step stops, and the state after `Reset` (70_reset_and_hazards.md R130). Plain data only. -/

namespace Sys2Proof.Machine

/-- The display: 32 rows of 64 cells, `true` on, `false` off (R18). -/
abbrev Display := Vector (Vector Bool 64) 32

/-- The five faults (R110). The first four latch in the fault record; `capacityError` is only ever returned by `load` (R116). -/
inductive FaultCode where
  | invalidOpcode
  | stackOverflow
  | stackUnderflow
  | addressError
  | capacityError
  deriving DecidableEq, Repr

/-- The numeric code of a fault, 3 bits; code 0 is NONE, the empty record (R20, R110). -/
def FaultCode.code : FaultCode → BitVec 3
  | .invalidOpcode => 1#3
  | .stackOverflow => 2#3
  | .stackUnderflow => 3#3
  | .addressError => 4#3
  | .capacityError => 5#3

/-- The triple `(code, ia, w)` a fault records (R20, R110). -/
structure FaultRecord where
  code : FaultCode
  ia : Word
  w : Word
  deriving DecidableEq, Repr

/-- Why the machine has no next state. -/
inductive Fault where
  /-- Raised by `step` alone, when a fault record is latched: no cycle runs while `fault` is not NONE (R5, R111, R120). Safe:
  the spec gives the core no move here; the record stands in the state that does not step, and in this reason. -/
  | halted (r : FaultRecord)
  deriving DecidableEq, Repr

/-- Why an instruction has no meaning. -/
inductive Refusal where
  /-- Raised by `exec` for an instruction rejected by name; no arm of this model does. Safe: nothing is claimed of it. -/
  | notModelled (mnemonic : String)
  deriving DecidableEq, Repr

/-- The architectural state. -/
structure State where
  /-- `V[0]` to `V[15]`; `V[0xF]` is the flag register `VF` (R10, R11) -/
  regs : Vector Byte 16
  /-- the index register `I` (R12) -/
  index : Word
  /-- the program counter (R13) -/
  pc : Word
  /-- the call stack `STACK[0]` to `STACK[15]` (R14) -/
  stack : Vector Word 16
  /-- the stack pointer, 0 to 16 (R15, D12) -/
  sp : Fin 17
  /-- the delay timer `DT` (R16) -/
  dt : Byte
  /-- the sound timer `ST` (R17) -/
  st : Byte
  /-- the display `DISP` (R18) -/
  disp : Display
  /-- memory: (address, byte) pairs, addresses rising, none equal to the reset contents that an unlisted address reads as (R19) -/
  mem : List Host.Cell
  /-- the fault record; `none` is NONE (R20) -/
  fault : Option FaultRecord
  /-- the model's own counter: how many random bytes have been consumed. It picks the free value `Config.randByte` (R21;
  log entry 1) -/
  draws : Nat
  deriving DecidableEq, Repr

/-- The state after `Reset` (R130): zeros, but for the program counter and the timers; memory lists nothing, since an
unlisted address reads the reset contents, the glyph table included. `draws := 0` is the model's choice (log entry 1). -/
def State.reset : State where
  regs := Vector.replicate 16 0x00#8
  index := 0x0000#16
  pc := BitVec.ofNat 16 Config.progBase
  stack := Vector.replicate 16 0x0000#16
  sp := 0
  dt := Config.timerReset
  st := Config.timerReset
  disp := Vector.replicate 32 (Vector.replicate 64 false)
  mem := []
  fault := none
  draws := 0

end Sys2Proof.Machine
end

