-- ==== Sys2Proof/WellFormed.lean ====
section
/-! DEFINITION. What is well formed: an instruction word (it matches a row of the opcode map, 30_encoding.md R55 to R57), an
instruction (every operand fits its field, R52) and a program image (70_reset_and_hazards.md R131). The opcode map is kept
here as data, mask and match as R55 prints them, apart from the decoder, so that the two can be held against each other. -/

namespace Sys2Proof

/-- A row of the opcode map: a word `w` is the row's instruction exactly when `w & mask = value` (R55). -/
structure OpRow where
  mnemonic : String
  mask : Word
  value : Word
  deriving DecidableEq, Repr

/-- Whether the row selects the word (R55). -/
def OpRow.selects (row : OpRow) (w : Word) : Bool := (w &&& row.mask) == row.value

/-- Rows 1 to 9 of the opcode map (R55). -/
def opRowsLow : List OpRow := [
  { mnemonic := "clear", mask := 0xFFFF#16, value := 0x00E0#16 },
  { mnemonic := "return", mask := 0xFFFF#16, value := 0x00EE#16 },
  { mnemonic := "jump", mask := 0xF000#16, value := 0x1000#16 },
  { mnemonic := "call", mask := 0xF000#16, value := 0x2000#16 },
  { mnemonic := "skip-if-equal-immediate", mask := 0xF000#16, value := 0x3000#16 },
  { mnemonic := "skip-if-not-equal-immediate", mask := 0xF000#16, value := 0x4000#16 },
  { mnemonic := "skip-if-registers-equal", mask := 0xF00F#16, value := 0x5000#16 },
  { mnemonic := "load-immediate", mask := 0xF000#16, value := 0x6000#16 },
  { mnemonic := "add-immediate", mask := 0xF000#16, value := 0x7000#16 }]

/-- Rows 10 to 18 of the opcode map: the family of first nibble 8 (R55). -/
def opRowsAlu : List OpRow := [
  { mnemonic := "copy", mask := 0xF00F#16, value := 0x8000#16 },
  { mnemonic := "or", mask := 0xF00F#16, value := 0x8001#16 },
  { mnemonic := "and", mask := 0xF00F#16, value := 0x8002#16 },
  { mnemonic := "xor", mask := 0xF00F#16, value := 0x8003#16 },
  { mnemonic := "add-with-carry", mask := 0xF00F#16, value := 0x8004#16 },
  { mnemonic := "sub-with-borrow", mask := 0xF00F#16, value := 0x8005#16 },
  { mnemonic := "shift-right", mask := 0xF00F#16, value := 0x8006#16 },
  { mnemonic := "subn-with-borrow", mask := 0xF00F#16, value := 0x8007#16 },
  { mnemonic := "shift-left", mask := 0xF00F#16, value := 0x800E#16 }]

/-- Rows 19 to 23 of the opcode map (R55). -/
def opRowsHigh : List OpRow := [
  { mnemonic := "skip-if-registers-not-equal", mask := 0xF00F#16, value := 0x9000#16 },
  { mnemonic := "load-index", mask := 0xF000#16, value := 0xA000#16 },
  { mnemonic := "jump-offset", mask := 0xF000#16, value := 0xB000#16 },
  { mnemonic := "random-and", mask := 0xF000#16, value := 0xC000#16 },
  { mnemonic := "draw-sprite", mask := 0xF000#16, value := 0xD000#16 }]

/-- The opcode map, 23 rows in the spec's order (R55). -/
def opRows : List OpRow := opRowsLow ++ opRowsAlu ++ opRowsHigh

/-- The name of an instruction's row, as R55 and spec/opcode_table.json spell it. -/
def Instr.mnemonic : Instr → String
  | .clear => "clear"
  | .ret => "return"
  | .jump _ => "jump"
  | .call _ => "call"
  | .skipEqImm _ _ => "skip-if-equal-immediate"
  | .skipNeImm _ _ => "skip-if-not-equal-immediate"
  | .skipEqReg _ _ => "skip-if-registers-equal"
  | .loadImm _ _ => "load-immediate"
  | .addImm _ _ => "add-immediate"
  | .copy _ _ => "copy"
  | .orReg _ _ => "or"
  | .andReg _ _ => "and"
  | .xorReg _ _ => "xor"
  | .addCarry _ _ => "add-with-carry"
  | .subBorrow _ _ => "sub-with-borrow"
  | .shiftRight _ _ => "shift-right"
  | .subnBorrow _ _ => "subn-with-borrow"
  | .shiftLeft _ _ => "shift-left"
  | .skipNeReg _ _ => "skip-if-registers-not-equal"
  | .loadIndex _ => "load-index"
  | .jumpOffset _ => "jump-offset"
  | .randomAnd _ _ => "random-and"
  | .drawSprite _ _ _ => "draw-sprite"

/-- A word is well formed when some row selects it; every other word is invalid (R55, R57, R58). -/
def wordWellFormed (w : Word) : Bool := opRows.any (fun row => row.selects w)

/-- An instruction is well formed when each operand is below the bound of its field (R52). The operand types already hold
each field to its width, so this is true of every term of `Instr` (`Laws.instr_wellFormed`): the bounds stand here so that
a reader sees them. -/
def Instr.wellFormed : Instr → Bool
  | .clear => true
  | .ret => true
  | .jump nnn => decide (nnn.toNat < 4096)
  | .call nnn => decide (nnn.toNat < 4096)
  | .skipEqImm x kk => decide (x.val < 16) && decide (kk.toNat < 256)
  | .skipNeImm x kk => decide (x.val < 16) && decide (kk.toNat < 256)
  | .skipEqReg x y => decide (x.val < 16) && decide (y.val < 16)
  | .loadImm x kk => decide (x.val < 16) && decide (kk.toNat < 256)
  | .addImm x kk => decide (x.val < 16) && decide (kk.toNat < 256)
  | .copy x y => decide (x.val < 16) && decide (y.val < 16)
  | .orReg x y => decide (x.val < 16) && decide (y.val < 16)
  | .andReg x y => decide (x.val < 16) && decide (y.val < 16)
  | .xorReg x y => decide (x.val < 16) && decide (y.val < 16)
  | .addCarry x y => decide (x.val < 16) && decide (y.val < 16)
  | .subBorrow x y => decide (x.val < 16) && decide (y.val < 16)
  | .shiftRight x y => decide (x.val < 16) && decide (y.val < 16)
  | .subnBorrow x y => decide (x.val < 16) && decide (y.val < 16)
  | .shiftLeft x y => decide (x.val < 16) && decide (y.val < 16)
  | .skipNeReg x y => decide (x.val < 16) && decide (y.val < 16)
  | .loadIndex nnn => decide (nnn.toNat < 4096)
  | .jumpOffset nnn => decide (nnn.toNat < 4096)
  | .randomAnd x kk => decide (x.val < 16) && decide (kk.toNat < 256)
  | .drawSprite x y n => decide (x.val < 16) && decide (y.val < 16) && decide (n.val < 16)

/-- A program image is well formed when it fits between 0x200 and the end of memory (R131). -/
def imageWellFormed (image : List Byte) : Bool := decide (image.length ≤ Config.maxImage)

end Sys2Proof
end

