-- ==== Sys2Proof/Machine/Ops.lean ====
section
/-! DEFINITION. The named operations over the state: registers, memory, display, call stack, the parts of a cycle
(00_scope.md R5), raising a fault (60_exceptions.md R111) and the host's operations (70_reset_and_hazards.md R130, R131). -/

namespace Sys2Proof.Machine

/-! ### Registers (10_state.md R10, R11) -/

/-- Read `V[r]`. -/
def State.reg (s : State) (r : RegIdx) : Byte := s.regs[r.val]

/-- `V[r] <- b`. -/
def State.setReg (s : State) (r : RegIdx) (b : Byte) : State := { s with regs := s.regs.set r.val b }

/-! ### Memory (20_memory.md) -/

/-- What an address that memory does not list reads as: the reset contents, 0x00 except the glyph table (R19, R31). -/
def Memory.unlisted (a : Nat) : Byte :=
  if Config.glyphBase ≤ a ∧ a < Config.glyphEnd then Config.glyphByte (a - Config.glyphBase) else 0x00#8

/-- The byte at an address. -/
def Memory.read : List Host.Cell → Nat → Byte
  | [], a => Memory.unlisted a
  | (k, v) :: rest, a => if a = k then v else Memory.read rest a

/-- Put a cell in front, unless it says what the unlisted address reads as anyway. -/
def Memory.cons (a : Nat) (b : Byte) (m : List Host.Cell) : List Host.Cell :=
  if b = Memory.unlisted a then m else (a, b) :: m

/-- Write one byte, keeping the canonical form. -/
def Memory.write : List Host.Cell → Nat → Byte → List Host.Cell
  | [], a, b => Memory.cons a b []
  | (k, v) :: rest, a, b =>
    if a < k then Memory.cons a b ((k, v) :: rest)
    else if a = k then Memory.cons a b rest
    else (k, v) :: Memory.write rest a b

/-- Write consecutive bytes upward from an address. -/
def Memory.writeBytes (m : List Host.Cell) (a : Nat) : List Byte → List Host.Cell
  | [] => m
  | b :: rest => Memory.writeBytes (Memory.write m a b) (a + 1) rest

/-- The cells are canonical above a bound: addresses at or above `lo`, rising, in memory, none equal to the unlisted byte. -/
def Memory.wfFrom (lo : Nat) : List Host.Cell → Bool
  | [] => true
  | (k, v) :: rest =>
    decide (lo ≤ k) && decide (k < Config.memSize) && decide (v ≠ Memory.unlisted k) && Memory.wfFrom (k + 1) rest

/-- The canonical form of memory. -/
def Memory.wf (m : List Host.Cell) : Bool := Memory.wfFrom 0 m

/-- `MemRead(addr, 1)` (R33). Its callers check first that the address lies in memory. -/
def State.readByte (s : State) (a : Nat) : Byte := Memory.read s.mem a

/-- `MemRead(addr, 2)`: the byte at the lower address is the high byte (R33, R35). -/
def State.readWord (s : State) (a : Nat) : Word := wordOfBytes (s.readByte a) (s.readByte (a + 1))

/-- `MemWrite`, from an address upward (R34). No instruction calls it. -/
def State.writeBytes (s : State) (a : Nat) (bs : List Byte) : State := { s with mem := Memory.writeBytes s.mem a bs }

/-! ### Display (10_state.md R18, R22) -/

/-- `DISP[r][c]`. -/
def Display.cell (d : Display) (r : Fin 32) (c : Fin 64) : Bool := d[r.val][c.val]

/-- `DISP[r][c] <- b`. -/
def Display.setCell (d : Display) (r : Fin 32) (c : Fin 64) (b : Bool) : Display :=
  d.set r.val (d[r.val].set c.val b)

/-- Every cell off (R101). -/
def Display.blank : Display := Vector.replicate 32 (Vector.replicate 64 false)

/-- A row coordinate, reduced modulo 32 (R18, R93). -/
def rowOf (v : Nat) : Fin 32 := Fin.ofNat 32 v

/-- A column coordinate, reduced modulo 64 (R18, R93). -/
def colOf (v : Nat) : Fin 64 := Fin.ofNat 64 v

/-- The host's read-only view of the display (R22). -/
def displayView (s : State) (r : Fin 32) (c : Fin 64) : Bool := Display.cell s.disp r c

/-! ### Raising a fault (60_exceptions.md R111, R119) -/

/-- `raise code(ia, w)`: latch the record and leave everything else as it stands (R111). The cycle ends here: `endCycle`
does not tick a state with a latched record. There is no handler, vector or return (R119, R120); the way on is `hostReset`. -/
def raise (code : FaultCode) (ia w : Word) (s : State) : State := { s with fault := some { code, ia, w } }

/-- The address `ia` of the instruction being executed: on entry `pc = ia + 2` (R9, R70). -/
def instrAddr (s : State) : Word := s.pc - 2#16

/-- A fault of an instruction's own check: the record holds its address and its word (R110). -/
def raiseFrom (code : FaultCode) (i : Instr) (s : State) : State := raise code (instrAddr s) (encode i) s

/-! ### The parts of a cycle (00_scope.md R5) -/

/-- Whether an instruction can be fetched at this address: even, 0x0200 to 0x0FFE (20_memory.md R36). -/
def fetchOk (pc : Word) : Bool :=
  decide (pc.toNat % 2 = 0) && decide (Config.progBase ≤ pc.toNat) && decide (pc.toNat ≤ Config.lastFetch)

/-- Step (1): the instruction word at `pc`, big-endian (R35). -/
def fetchWord (s : State) : Word := s.readWord s.pc.toNat

/-- Step (2): `pc <- pc + 2` (R5, D1). -/
def advance (s : State) : State := { s with pc := s.pc + 2#16 }

/-- The fetch of an address that R36 forbids: nothing changes but the record `(pc, 0x0000)` (R115 cause (a)). -/
def raiseFetch (s : State) : State := raise .addressError s.pc 0x0000#16 s

/-- The word matches no pattern: the record holds its address and the word (R112). `s` is the state after the advance. -/
def raiseInvalid (w : Word) (s : State) : State := raise .invalidOpcode (instrAddr s) w s

/-- One timer loses 1 unless it is 0 (R122). -/
def tickTimer (t : Byte) : Byte := if t = 0x00#8 then t else t - 1#8

/-- Step (4): both timers tick, independently (R122). -/
def tick (s : State) : State := { s with dt := tickTimer s.dt, st := tickTimer s.st }

/-- The end of a cycle: the timers tick if the instruction raised no fault (R5, R111). -/
def endCycle : Host.Outcome State Fault Refusal → Host.Outcome State Fault Refusal
  | .next t => .next (if t.fault.isNone then tick t else t)
  | .fault r => .fault r
  | .refused r => .refused r

/-! ### The random byte (10_state.md R21) -/

/-- The byte the random source presents next: a free value (log entry 1). -/
def State.nextRand (s : State) : Byte := Config.randByte s.draws

/-- The random source has delivered one byte (R92). -/
def State.drawDone (s : State) : State := { s with draws := s.draws + 1 }

/-! ### The host's operations (00_scope.md R7) -/

/-- `Reset`, at any time between cycles (R130, D19): the reset state, the fault record cleared. The random source is the
host's and is not reset, so the model's counter of draws goes on (log entry 1). -/
def hostReset (s : State) : State := { State.reset with draws := s.draws }

/-- `Load(bytes)`: the image from 0x200 upward; an image that does not fit is refused whole (R116, R131, D21). -/
def load (image : List Byte) (s : State) : Except FaultCode State :=
  if imageWellFormed image then .ok (s.writeBytes Config.progBase image) else .error .capacityError

/-- The launch state of a run: `Reset`, then `Load(image)` (R132). -/
def launch (image : List Byte) : Except FaultCode State := load image State.reset

/-- Place a word where the next fetch reads it: the two bytes at `pc`, high byte first (R35), if `pc` can be fetched from. -/
def placeWord (s : State) (w : Word) : State :=
  if fetchOk s.pc then s.writeBytes s.pc.toNat (bytesOfWord w) else s

end Sys2Proof.Machine
end

