-- ==== Sys2Proof/Machine/Flags.lean ====
section
/-! DEFINITION. The 8-bit arithmetic and its flags (10_state.md R11, 42_alu.md R93): exact on integers, then reduced. -/

namespace Sys2Proof.Machine

/-- A flag as a register value, 0x00 or 0x01 (R11). -/
def flagByte (b : Bool) : Byte := if b then 0x01#8 else 0x00#8

/-- `(a + b) mod 256` (R93). -/
def wrapAdd (a b : Byte) : Byte := BitVec.ofNat 8 (a.toNat + b.toNat)

/-- The carry of `a + b`: the sum exceeds 255 (R87). -/
def carryOut (a b : Byte) : Bool := decide (a.toNat + b.toNat > 255)

/-- `(a - b) mod 256` (R93). -/
def wrapSub (a b : Byte) : Byte := BitVec.ofInt 8 ((a.toNat : Int) - (b.toNat : Int))

/-- No borrow in `a - b`: `a >= b` (R88, R90). -/
def noBorrow (a b : Byte) : Bool := decide (a.toNat ≥ b.toNat)

/-- The logical shift right by one, `floor(a / 2)` (R89). -/
def shiftDown (a : Byte) : Byte := BitVec.ofNat 8 (a.toNat / 2)

/-- The bit a right shift loses, `a[0]` (R89). -/
def lowBit (a : Byte) : Bool := a.getLsbD 0

/-- The shift left by one, `(2 a) mod 256` (R91). -/
def shiftUp (a : Byte) : Byte := BitVec.ofNat 8 (2 * a.toNat)

/-- The bit a left shift loses, `a[7]` (R91). -/
def highBit (a : Byte) : Bool := a.getLsbD 7

/-- Write a result and a flag: the result to `V[x]` first, the flag to `VF` last, so that for `x = 0xF` the flag stays
(R80). The order is the spec's own decision D4: log entry 4. -/
def State.setResultFlag (s : State) (x : RegIdx) (result : Byte) (flag : Bool) : State :=
  (s.setReg x result).setReg Config.flagReg (flagByte flag)

end Sys2Proof.Machine
end

