-- ==== Sys2Proof/Machine/Alu.lean ====
section
/-! DEFINITION. Register loads, arithmetic, logic, shifts and random (42_alu.md R80 to R92). Every operand is read from the
state on entry; the result is written first and the flag, where there is one, last (R80). -/

namespace Sys2Proof.Machine

/-- `load-immediate x kk` (R81). -/
def execLoadImm (x : RegIdx) (kk : Byte) (s : State) : Host.Outcome State Fault Refusal := .next (s.setReg x kk)

/-- `add-immediate x kk` (R82): wraps, no flag. -/
def execAddImm (x : RegIdx) (kk : Byte) (s : State) : Host.Outcome State Fault Refusal :=
  .next (s.setReg x (wrapAdd (s.reg x) kk))

/-- `copy x y` (R83). -/
def execCopy (x y : RegIdx) (s : State) : Host.Outcome State Fault Refusal := .next (s.setReg x (s.reg y))

/-- `or x y` (R84): no flag. -/
def execOrReg (x y : RegIdx) (s : State) : Host.Outcome State Fault Refusal :=
  .next (s.setReg x (s.reg x ||| s.reg y))

/-- `and x y` (R85): no flag. -/
def execAndReg (x y : RegIdx) (s : State) : Host.Outcome State Fault Refusal :=
  .next (s.setReg x (s.reg x &&& s.reg y))

/-- `xor x y` (R86): no flag. -/
def execXorReg (x y : RegIdx) (s : State) : Host.Outcome State Fault Refusal :=
  .next (s.setReg x (s.reg x ^^^ s.reg y))

/-- `add-with-carry x y` (R87): no carry in; the flag is the carry out. -/
def execAddCarry (x y : RegIdx) (s : State) : Host.Outcome State Fault Refusal :=
  .next (s.setResultFlag x (wrapAdd (s.reg x) (s.reg y)) (carryOut (s.reg x) (s.reg y)))

/-- `sub-with-borrow x y` (R88): the flag is "no borrow". -/
def execSubBorrow (x y : RegIdx) (s : State) : Host.Outcome State Fault Refusal :=
  .next (s.setResultFlag x (wrapSub (s.reg x) (s.reg y)) (noBorrow (s.reg x) (s.reg y)))

/-- `shift-right x y` (R89): `y` is encoded and ignored. -/
def execShiftRight (x _y : RegIdx) (s : State) : Host.Outcome State Fault Refusal :=
  .next (s.setResultFlag x (shiftDown (s.reg x)) (lowBit (s.reg x)))

/-- `subn-with-borrow x y` (R90): the operands are reversed, the destination is still `V[x]`. -/
def execSubnBorrow (x y : RegIdx) (s : State) : Host.Outcome State Fault Refusal :=
  .next (s.setResultFlag x (wrapSub (s.reg y) (s.reg x)) (noBorrow (s.reg y) (s.reg x)))

/-- `shift-left x y` (R91): `y` is encoded and ignored. -/
def execShiftLeft (x _y : RegIdx) (s : State) : Host.Outcome State Fault Refusal :=
  .next (s.setResultFlag x (shiftUp (s.reg x)) (highBit (s.reg x)))

/-- `random-and x kk` (R92): consumes one byte of the random source. -/
def execRandomAnd (x : RegIdx) (kk : Byte) (s : State) : Host.Outcome State Fault Refusal :=
  .next (s.setReg x (s.nextRand &&& kk)).drawDone

end Sys2Proof.Machine
end

