-- ==== Sys2Proof/Machine/Operands.lean ====
section
/-! DEFINITION. The operand forms beyond a register: zero-extended immediates and the sprite's data addresses
(30_encoding.md R54, 20_memory.md R37, R38, 00_scope.md R9). Registers are read by `State.reg`, `kk` is a byte as it is. -/

namespace Sys2Proof.Machine

/-- `zext_16(nnn)`: an absolute byte address (R54). -/
def addrOf (nnn : Imm12) : Word := nnn.setWidth 16

/-- `zext_16(b)`: a byte as an unsigned 16-bit value (R74). -/
def wordOf (b : Byte) : Word := b.setWidth 16

/-- The address of sprite row `i`: `I + i`, not reduced (R38). -/
def spriteAddr (s : State) (i : Nat) : Nat := s.index.toNat + i

/-- The sprite's `n` bytes do not all lie in memory: `n > 0` and `I + n - 1 > 0x0FFF` (R37). -/
def spriteOutside (s : State) (n : RowCount) : Bool :=
  decide (0 < n.val) && decide (s.index.toNat + n.val - 1 > 0x0FFF)

end Sys2Proof.Machine
end

