-- ==== Sys2Proof/Machine/Draw.lean ====
section
/-! DEFINITION. The index register and the framebuffer engine (43_index_draw.md R100 to R102). -/

namespace Sys2Proof.Machine

/-- `load-index nnn` (R100). -/
def execLoadIndex (nnn : Imm12) (s : State) : Host.Outcome State Fault Refusal := .next { s with index := addrOf nnn }

/-- `clear` (R101). -/
def execClear (s : State) : Host.Outcome State Fault Refusal := .next { s with disp := Display.blank }

/-- What the loop of R102 carries: the display and the summary "some cell went from on to off so far". -/
structure Canvas where
  disp : Display
  collision : Bool
  deriving DecidableEq, Repr

/-- One sprite bit into one cell: exclusive or, and a collision when an on cell meets a 1 bit (R102). -/
def drawBit (r : Fin 32) (c : Fin 64) (bit : Bool) (k : Canvas) : Canvas :=
  let old := Display.cell k.disp r c
  { disp := Display.setCell k.disp r c (old ^^ bit), collision := k.collision || (bit && old) }

/-- Bit `j` of a sprite byte, `j = 0` the most significant (R102). -/
def spriteBit (row : Byte) (j : Nat) : Bool := row.getLsbD (7 - j)

/-- One sprite row, columns left to right (R102). -/
def drawRow (vx : Nat) (r : Fin 32) (row : Byte) (k : Canvas) : Canvas :=
  (List.range 8).foldl (fun k j => drawBit r (colOf (vx + j)) (spriteBit row j) k) k

/-- `n` sprite rows, top to bottom, read from memory at `I` (R102). -/
def drawRows (s : State) (vx vy n : Nat) (k : Canvas) : Canvas :=
  (List.range n).foldl (fun k i => drawRow vx (rowOf (vy + i)) (s.readByte (spriteAddr s i)) k) k

/-- The whole sprite at `(V[x], V[y])` on the state's display (R102). -/
def drawnCanvas (x y : RegIdx) (n : RowCount) (s : State) : Canvas :=
  drawRows s (s.reg x).toNat (s.reg y).toNat n.val { disp := s.disp, collision := false }

/-- `draw-sprite x y n` (R102): the range check before any write; the flag written once, last. -/
def execDrawSprite (x y : RegIdx) (n : RowCount) (s : State) : Host.Outcome State Fault Refusal :=
  if spriteOutside s n then .next (raiseFrom .addressError (.drawSprite x y n) s)
  else
    let k := drawnCanvas x y n s
    .next (State.setReg { s with disp := k.disp } Config.flagReg (flagByte k.collision))

end Sys2Proof.Machine
end

