-- ==== Sys2Proof/Machine/Flow.lean ====
section
/-! DEFINITION. Control transfer (40_flow.md R70 to R74). On entry `pc = ia + 2`. A target is checked by the next fetch, not
here (R70). -/

namespace Sys2Proof.Machine

/-- `sp` after a push, for `sp < 16`. -/
def spUp (sp : Fin 17) : Fin 17 := Fin.ofNat 17 (sp.val + 1)

/-- `sp` after a pop, for `sp > 0`. -/
def spDown (sp : Fin 17) : Fin 17 := Fin.ofNat 17 (sp.val - 1)

/-- `return` (R71): pop the address into `pc`; the entry stays in the array. -/
def execRet (s : State) : Host.Outcome State Fault Refusal :=
  if h : s.sp = 0 then .next (raiseFrom .stackUnderflow .ret s)
  else .next { s with
    sp := spDown s.sp
    pc := s.stack[s.sp.val - 1]'(by have := s.sp.isLt; have : s.sp.val ≠ 0 := fun e => h (Fin.ext e); omega) }

/-- `jump nnn` (R72). -/
def execJump (nnn : Imm12) (s : State) : Host.Outcome State Fault Refusal := .next { s with pc := addrOf nnn }

/-- `call nnn` (R73): push the advanced `pc`, then go to `nnn`. -/
def execCall (nnn : Imm12) (s : State) : Host.Outcome State Fault Refusal :=
  if h : s.sp.val < Config.stackDepth then
    .next { s with stack := s.stack.set s.sp.val s.pc h, sp := spUp s.sp, pc := addrOf nnn }
  else .next (raiseFrom .stackOverflow (.call nnn) s)

/-- `jump-offset nnn` (R74): the sum is not reduced to 12 bits (D22). -/
def execJumpOffset (nnn : Imm12) (s : State) : Host.Outcome State Fault Refusal :=
  .next { s with pc := addrOf nnn + wordOf (s.reg 0) }

end Sys2Proof.Machine
end

