-- ==== Sys2Proof/Machine/Skip.lean ====
section
/-! DEFINITION. The conditional skips (41_skip.md R75 to R79). On entry `pc = ia + 2`; a taken skip leaves `ia + 4`. -/

namespace Sys2Proof.Machine

/-- Skip the next instruction when the condition holds; write nothing but `pc` (R75). -/
def skipWhen (taken : Bool) (s : State) : State := if taken then { s with pc := s.pc + 2#16 } else s

/-- `skip-if-equal-immediate x kk` (R76). -/
def execSkipEqImm (x : RegIdx) (kk : Byte) (s : State) : Host.Outcome State Fault Refusal :=
  .next (skipWhen (s.reg x == kk) s)

/-- `skip-if-not-equal-immediate x kk` (R77). -/
def execSkipNeImm (x : RegIdx) (kk : Byte) (s : State) : Host.Outcome State Fault Refusal :=
  .next (skipWhen (s.reg x != kk) s)

/-- `skip-if-registers-equal x y` (R78). -/
def execSkipEqReg (x y : RegIdx) (s : State) : Host.Outcome State Fault Refusal :=
  .next (skipWhen (s.reg x == s.reg y) s)

/-- `skip-if-registers-not-equal x y` (R79). -/
def execSkipNeReg (x y : RegIdx) (s : State) : Host.Outcome State Fault Refusal :=
  .next (skipWhen (s.reg x != s.reg y) s)

end Sys2Proof.Machine
end

