-- ==== Sys2Proof/Machine/Dispatch.lean ====
section
/-! DEFINITION. `Execute` after decoding (30_encoding.md R56): one direct call of its meaning for every instruction. On entry
the fetch and the advance have happened, `pc = ia + 2` (40_flow.md R70). -/

namespace Sys2Proof.Machine

def exec (i : Instr) (s : State) : Host.Outcome State Fault Refusal :=
  match i with
  | .clear => Sys2Proof.Machine.execClear s
  | .ret => Sys2Proof.Machine.execRet s
  | .jump nnn => Sys2Proof.Machine.execJump nnn s
  | .call nnn => Sys2Proof.Machine.execCall nnn s
  | .skipEqImm x kk => Sys2Proof.Machine.execSkipEqImm x kk s
  | .skipNeImm x kk => Sys2Proof.Machine.execSkipNeImm x kk s
  | .skipEqReg x y => Sys2Proof.Machine.execSkipEqReg x y s
  | .loadImm x kk => Sys2Proof.Machine.execLoadImm x kk s
  | .addImm x kk => Sys2Proof.Machine.execAddImm x kk s
  | .copy x y => Sys2Proof.Machine.execCopy x y s
  | .orReg x y => Sys2Proof.Machine.execOrReg x y s
  | .andReg x y => Sys2Proof.Machine.execAndReg x y s
  | .xorReg x y => Sys2Proof.Machine.execXorReg x y s
  | .addCarry x y => Sys2Proof.Machine.execAddCarry x y s
  | .subBorrow x y => Sys2Proof.Machine.execSubBorrow x y s
  | .shiftRight x y => Sys2Proof.Machine.execShiftRight x y s
  | .subnBorrow x y => Sys2Proof.Machine.execSubnBorrow x y s
  | .shiftLeft x y => Sys2Proof.Machine.execShiftLeft x y s
  | .skipNeReg x y => Sys2Proof.Machine.execSkipNeReg x y s
  | .loadIndex nnn => Sys2Proof.Machine.execLoadIndex nnn s
  | .jumpOffset nnn => Sys2Proof.Machine.execJumpOffset nnn s
  | .randomAnd x kk => Sys2Proof.Machine.execRandomAnd x kk s
  | .drawSprite x y n => Sys2Proof.Machine.execDrawSprite x y n s

end Sys2Proof.Machine
end

