-- ==== Sys2Proof/Machine/Step.lean ====
section
/-! DEFINITION. One cycle of the core (00_scope.md R5): fetch, advance, decode and execute, tick. Its parts stand in
Machine/Ops.lean. -/

namespace Sys2Proof.Machine

/-- `Cycle` (R5). A latched fault disables it (R111). A cycle that raises answers the state with the record latched: the fetch
check first, then the decoder, then the instruction's own check (R117). -/
def step (s : State) : Host.Outcome State Fault Refusal :=
  match s.fault with
  | some r => .fault (.halted r)
  | none =>
    if fetchOk s.pc then
      match decodeWord (fetchWord s) with
      | .ok i => endCycle (exec i (advance s))
      | .error _ => .next (raiseInvalid (fetchWord s) (advance s))
    else .next (raiseFetch s)

/-- `s` with the table's word `w` stored where `step` fetches its next instruction: the two bytes at `pc`. -/
def State.withFetchWord (s : State) (nbits w : Nat) : State := placeWord s (tableWord nbits w)

end Sys2Proof.Machine
end

