-- ==== Sys2Proof/Safety.lean ====
section
/-! DEFINITION. The terms claims are stated in: what a step leaves unchanged, the states a run can be in (10_state.md R24), a
self-jump (70_reset_and_hazards.md R136), a completed cycle. -/

namespace Sys2Proof

open Sys2Proof.Machine

/-! ### Words given by their fields, as numbers (30_encoding.md R52, R53) -/

/-- `w[15:12] = op`, `w[11:8] = x`, `w[7:4] = y`, `w[3:0] = f` (formats R and S). -/
def WordR (w : Word) (op : Nat) (x y : RegIdx) (f : Fin 16) : Prop :=
  w.toNat = 4096 * op + 256 * x.val + 16 * y.val + f.val

/-- `w[15:12] = op`, `w[11:8] = x`, `w[7:0] = kk` (format I). -/
def WordI (w : Word) (op : Nat) (x : RegIdx) (kk : Byte) : Prop := w.toNat = 4096 * op + 256 * x.val + kk.toNat

/-- `w[15:12] = op`, `w[11:0] = nnn` (format A). -/
def WordA (w : Word) (op : Nat) (nnn : Imm12) : Prop := w.toNat = 4096 * op + nnn.toNat

/-! ### What stays the same between two states -/

/-- Every general register but those `p` names reads as before. -/
def KeepsRegsBut (p : RegIdx → Prop) (s t : State) : Prop := ∀ r, ¬ p r → t.reg r = s.reg r

/-- Every general register reads as before. -/
def KeepsRegs (s t : State) : Prop := ∀ r, t.reg r = s.reg r

/-- Every byte of memory reads as before. -/
def KeepsMemory (s t : State) : Prop := ∀ a, t.readByte a = s.readByte a

/-- Every display cell is as before. -/
def KeepsDisplay (s t : State) : Prop := ∀ r c, displayView t r c = displayView s r c

/-- The stack pointer and every entry of the call stack are as before. -/
def KeepsStack (s t : State) : Prop := t.sp = s.sp ∧ ∀ k : Fin 16, t.stack[k.val] = s.stack[k.val]

/-- Both timers are as before. -/
def KeepsTimers (s t : State) : Prop := t.dt = s.dt ∧ t.st = s.st

/-- Memory, timers, fault record and the count of draws are as before: the frame of an instruction that completes. -/
def KeepsRest (s t : State) : Prop := KeepsMemory s t ∧ KeepsTimers s t ∧ t.fault = s.fault ∧ t.draws = s.draws

/-- Nothing but general registers may differ. -/
def OnlyRegs (s t : State) : Prop :=
  t.pc = s.pc ∧ t.index = s.index ∧ KeepsStack s t ∧ KeepsDisplay s t ∧ KeepsRest s t

/-- Nothing but the program counter may differ. -/
def OnlyPc (s t : State) : Prop :=
  KeepsRegs s t ∧ t.index = s.index ∧ KeepsStack s t ∧ KeepsDisplay s t ∧ KeepsRest s t

/-- Nothing but the program counter, the stack pointer and the call stack may differ. -/
def OnlyPcAndStack (s t : State) : Prop :=
  KeepsRegs s t ∧ t.index = s.index ∧ KeepsDisplay s t ∧ KeepsRest s t

/-! ### The states of a run -/

/-- A return address a `call` pushes: even, 0x0202 to 0x1000 (R24 item (c)). -/
def returnAddrOk (w : Word) : Bool :=
  decide (w.toNat % 2 = 0) && decide (0x0202 ≤ w.toNat) && decide (w.toNat ≤ 0x1000)

/-- What a latched record says of the state it is latched in (R110, R111): a fetch fault at `pc`, or a fault of the
instruction at `ia`, whose word is the one at `ia`, with `pc` advanced past it and the check that failed still failing. -/
def RecordExplains (s : State) (r : FaultRecord) : Prop :=
  (r.code = .addressError ∧ r.ia = s.pc ∧ r.w = 0x0000#16 ∧ fetchOk s.pc = false) ∨
  (fetchOk r.ia = true ∧ s.pc = r.ia + 2#16 ∧ r.w = s.readWord r.ia.toNat ∧
    ((r.code = .invalidOpcode ∧ wordWellFormed r.w = false) ∨
     (r.code = .stackOverflow ∧ s.sp = 16 ∧ ∃ nnn, decodeWord r.w = .ok (.call nnn)) ∨
     (r.code = .stackUnderflow ∧ s.sp = 0 ∧ r.w = 0x00EE#16) ∨
     (r.code = .addressError ∧
       ∃ x y n, decodeWord r.w = .ok (.drawSprite x y n) ∧ 0 < n.val ∧ s.index.toNat + n.val - 1 > 0x0FFF)))

/-- The invariant of the states a run can be in (R24). -/
structure Inv (s : State) : Prop where
  /-- memory is in its canonical form -/
  memory : Memory.wf s.mem = true
  /-- item (b): `I <= 0x0FFF` -/
  index : s.index.toNat ≤ 0x0FFF
  /-- `pc` never exceeds the largest sum `jump-offset` forms, so 16-bit arithmetic on it never overflows (R13) -/
  pc : s.pc.toNat ≤ 0x10FE
  /-- item (c): every entry in use is a return address -/
  stack : ∀ k : Fin 16, k.val < s.sp.val → returnAddrOk s.stack[k.val] = true
  /-- item (d): the timers are equal -/
  timers : s.dt = s.st
  /-- a latched record tells the truth about the state -/
  record : ∀ r, s.fault = some r → RecordExplains s r

/-- A self-jump: the instruction at `pc` jumps to `pc`, and no fault is latched (R136 (b)). -/
def SelfJump (s : State) : Prop :=
  s.fault = none ∧ fetchOk s.pc = true ∧ ∃ nnn, decodeWord (fetchWord s) = .ok (.jump nnn) ∧ addrOf nnn = s.pc

/-- The step completed a cycle: it answered a state in which no fault is latched (R5, R111). -/
def Completes (s t : State) : Prop := step s = .next t ∧ t.fault = none

/-! ### Classes of instructions -/

/-- The register an instruction names as the destination of a result. -/
def destination : Instr → Option RegIdx
  | .clear => none
  | .ret => none
  | .jump _ => none
  | .call _ => none
  | .skipEqImm _ _ => none
  | .skipNeImm _ _ => none
  | .skipEqReg _ _ => none
  | .loadImm x _ => some x
  | .addImm x _ => some x
  | .copy x _ => some x
  | .orReg x _ => some x
  | .andReg x _ => some x
  | .xorReg x _ => some x
  | .addCarry x _ => some x
  | .subBorrow x _ => some x
  | .shiftRight x _ => some x
  | .subnBorrow x _ => some x
  | .shiftLeft x _ => some x
  | .skipNeReg _ _ => none
  | .loadIndex _ => none
  | .jumpOffset _ => none
  | .randomAnd x _ => some x
  | .drawSprite _ _ _ => none

/-- The six instructions that write `VF` as a side effect (R11). -/
def writesFlag : Instr → Bool
  | .clear => false
  | .ret => false
  | .jump _ => false
  | .call _ => false
  | .skipEqImm _ _ => false
  | .skipNeImm _ _ => false
  | .skipEqReg _ _ => false
  | .loadImm _ _ => false
  | .addImm _ _ => false
  | .copy _ _ => false
  | .orReg _ _ => false
  | .andReg _ _ => false
  | .xorReg _ _ => false
  | .addCarry _ _ => true
  | .subBorrow _ _ => true
  | .shiftRight _ _ => true
  | .subnBorrow _ _ => true
  | .shiftLeft _ _ => true
  | .skipNeReg _ _ => false
  | .loadIndex _ => false
  | .jumpOffset _ => false
  | .randomAnd _ _ => false
  | .drawSprite _ _ _ => true

/-! ### The sprite in closed form (43_index_draw.md R103) -/

/-- Some 1 bit of the sprite falls on the cell: with `i < n` and `j < 8`, `r = (V[y] + i) mod 32`, `c = (V[x] + j) mod 64` and
`MEM[I + i][7 - j] = 1`. -/
def SpriteCovers (s : State) (x y : RegIdx) (n : RowCount) (r : Fin 32) (c : Fin 64) : Prop :=
  ∃ i j : Nat, i < n.val ∧ j < 8 ∧ r.val = ((s.reg y).toNat + i) % 32 ∧ c.val = ((s.reg x).toNat + j) % 64 ∧
    (s.readByte (s.index.toNat + i)).getLsbD (7 - j) = true

/-- The sprite's bytes all lie in memory, or there are none (R37). -/
def SpriteInMemory (s : State) (n : RowCount) : Prop := n.val = 0 ∨ s.index.toNat + n.val - 1 ≤ 0x0FFF

end Sys2Proof
end

