-- ==== Sys2Proof/Certificates/Slice0/Obligations.lean ====
section
/-! DEFINITION. The statements for the provers. Each names the rule of spec/ it formalises; where a clause rests on a decision
the spec marks as its own (92_eei_decisions.md) or on a log entry, the docstring says so. In the statements about `exec`, `s` is
the state on entry to the instruction, after the fetch and the advance: `s.pc = ia + 2` (40_flow.md R70, decision D1). -/

open Sys2Proof Sys2Proof.Machine

/-! ### Encoding -/

/-- 30_encoding.md sections 1 to 3 (R53, R55): decoding the word of an instruction, or its bytes with anything after them, gives it
back, for every instruction and every operand value. (Every instruction is well formed: `Laws.instr_wellFormed`.) -/
def Obligations.DecodeOfEncodeIsIdentity : Prop :=
  ∀ i : Instr, decodeWord (encode i) = .ok i ∧ ∀ rest, decode (encodeBytes i ++ rest) = .ok (i, rest)

/-- 30_encoding.md sections 1 to 3: a word that decodes is the word of the instruction it decodes to, so no two words mean one
instruction and no bit of a word is ignored. -/
def Obligations.EncodeOfDecodeIsIdentity : Prop :=
  ∀ (w : Word) (i : Instr), decodeWord w = .ok i → encode i = w

/-- 30_encoding.md R55: "a word `w` is that instruction exactly when `w & mask = match`", for each of the 23 rows; and a word that no
row selects is invalid (R57). -/
def Obligations.DecoderFollowsOpcodeMap : Prop :=
  (∀ row ∈ opRows, ∀ w : Word, row.selects w = true ↔ ∃ i, decodeWord w = .ok i ∧ i.mnemonic = row.mnemonic) ∧
  (∀ w : Word, wordWellFormed w = false ↔ decodeWord w = .error (.invalidOpcode w))

/-- 30_encoding.md R56: "The 23 patterns are pairwise disjoint (no word matches two rows)" (the spec derives it from the masks). -/
def Obligations.OpcodeMapRowsAreDisjoint : Prop :=
  opRows.length = 23 ∧
  ∀ (w : Word) (a b : OpRow), a ∈ opRows → b ∈ opRows → a.selects w = true → b.selects w = true → a = b

/-- Sanity, from the spec's own spellings (30_encoding.md R60, 95_test_vectors.md): a few words decode to the instructions the spec
says they are, and three words the spec lists as invalid do not decode. -/
def Obligations.WrittenOutWordsDecode : Prop :=
  decodeWord 0xD015#16 = .ok (.drawSprite 0 1 5) ∧ decodeWord 0x8014#16 = .ok (.addCarry 0 1) ∧
  decodeWord 0x1204#16 = .ok (.jump 0x204#12) ∧ decodeWord 0x4F01#16 = .ok (.skipNeImm 15 0x01#8) ∧
  decodeWord 0xA050#16 = .ok (.loadIndex 0x050#12) ∧ decodeWord 0x00EE#16 = .ok .ret ∧
  decodeWord 0x5AB7#16 = .error (.invalidOpcode 0x5AB7#16) ∧ decodeWord 0x8128#16 = .error (.invalidOpcode 0x8128#16) ∧
  decodeWord 0xF107#16 = .error (.invalidOpcode 0xF107#16)

/-- 30_encoding.md R52: the operand fields are the named bits of the word. -/
def Obligations.FieldsAreTheirBits : Prop :=
  ∀ w : Word,
    (fieldX w).val = w.toNat / 256 % 16 ∧ (fieldY w).val = w.toNat / 16 % 16 ∧ (fieldN w).val = w.toNat % 16 ∧
    (fieldKK w).toNat = w.toNat % 256 ∧ (fieldNNN w).toNat = w.toNat % 4096

/-! ### The cycle -/

/-- 00_scope.md R5 (the order is the document's; that the core advances and ticks is the spec's decision D1, D9): when no fault is
latched, `pc` can be fetched from and the big-endian word there decodes to `i`, the step is `exec i` on the state with `pc`
advanced by 2, with the timers ticked afterwards unless the instruction latched a fault (D5; that a latched record counts as a next
state is log entry 3). -/
def Obligations.StepRunsDecodedInstruction : Prop :=
  ∀ (s : State) (i : Instr),
    s.fault = none → s.pc.toNat % 2 = 0 → 0x0200 ≤ s.pc.toNat → s.pc.toNat ≤ 0x0FFE →
    decodeWord (wordOfBytes (s.readByte s.pc.toNat) (s.readByte (s.pc.toNat + 1))) = .ok i →
    step s = endCycle (exec i { s with pc := s.pc + 2#16 }) ∧
    ∀ t, exec i { s with pc := s.pc + 2#16 } = .next t →
      step s = .next (if t.fault = none then { t with dt := tickTimer t.dt, st := tickTimer t.st } else t)

/-- 00_scope.md R5 ("precondition: fault = NONE") and 60_exceptions.md R111, R120 (the latch is the spec's decision D6; its form as a
fault outcome is log entry 3): a step from a latched fault has no next state, from any other state it has one. -/
def Obligations.LatchedFaultDisablesTheCycle : Prop :=
  (∀ (s : State) (r : FaultRecord), s.fault = some r → step s = .fault (.halted r)) ∧
  (∀ s : State, s.fault = none → ∃ t, step s = .next t)

/-- 20_memory.md R36 and 60_exceptions.md R115 cause (a) (the name and the odd case are the spec's decision D2; that the latched record
counts as a next state is log entry 3): a fetch at an odd address, below 0x0200 or above 0x0FFE latches `AddressError (pc, 0x0000)` and
changes nothing else. -/
def Obligations.FetchOutsideProgramFaults : Prop :=
  ∀ s : State, s.fault = none →
    (s.pc.toNat % 2 = 1 ∨ s.pc.toNat < 0x0200 ∨ s.pc.toNat > 0x0FFE) →
    step s = .next { s with fault := some { code := .addressError, ia := s.pc, w := 0x0000#16 } }

/-- 30_encoding.md R57 and 60_exceptions.md R112 (the latch and the skipped tick are the spec's decisions D5, D6; that the latched record
counts as a next state is log entry 3): a fetched word that no row of the opcode map selects latches `InvalidOpcode (ia, w)` with `pc = ia
+ 2` and changes nothing else. -/
def Obligations.InvalidWordFaultsUnexecuted : Prop :=
  ∀ s : State, s.fault = none → s.pc.toNat % 2 = 0 → 0x0200 ≤ s.pc.toNat → s.pc.toNat ≤ 0x0FFE →
    wordWellFormed (s.readWord s.pc.toNat) = false →
    step s = .next { s with
      pc := s.pc + 2#16
      fault := some { code := .invalidOpcode, ia := s.pc, w := s.readWord s.pc.toNat } }

/-- 60_exceptions.md R111, R119 (the spec's decisions D5, D6; that the latched record counts as a next state is log entry 3): a cycle that
latches a fault changes nothing but the record and, for a fault of the execute stage, `pc`, advanced by 2; the record names the address of
the instruction. -/
def Obligations.FaultingCycleIsPrecise : Prop :=
  ∀ (s t : State) (r : FaultRecord), step s = .next t → t.fault = some r →
    r.ia = s.pc ∧ r.code ≠ .capacityError ∧
    (t = { s with fault := some r } ∨ t = { s with pc := s.pc + 2#16, fault := some r })

/-- 60_exceptions.md R122 (the core ticks: the spec's decision D9; no tick in a faulting cycle: D5; that such a cycle answers a next
state, with the record latched, is log entry 3): a completed cycle takes 1 from
each timer that is not 0, whatever the instruction; a faulting one takes nothing. -/
def Obligations.EveryCompletedCycleTicksOnce : Prop :=
  ∀ s t : State, step s = .next t →
    (t.fault = none → t.dt.toNat = s.dt.toNat - 1 ∧ t.st.toNat = s.st.toNat - 1) ∧
    (t.fault ≠ none → t.dt = s.dt ∧ t.st = s.st)

/-- 10_state.md R24 item (d), which the spec derives, from any state: `k` completed cycles take `k` from each timer, stopping at 0. -/
def Obligations.TimersCountCompletedCycles : Prop :=
  ∀ (k : Nat) (s t : State), Host.Core.run Sys2Proof.core k s = .next t → t.fault = none →
    t.dt.toNat = s.dt.toNat - k ∧ t.st.toNat = s.st.toNat - k

/-- 20_memory.md R34, R38 and 10_state.md R24 item (e): no instruction writes memory, so a step leaves it as it is. -/
def Obligations.MemoryIsConstantUnderStep : Prop :=
  ∀ s t : State, step s = .next t → t.mem = s.mem

/-! ### The invariant of a run (10_state.md R24, which the spec derives) -/

/-- Every step keeps the invariant: memory canonical, `I <= 0x0FFF`, `pc <= 0x10FE`, every stack entry in use an even address in 0x0202
to 0x1000, the timers equal, and a latched record true of the state it stands in. (The record clause is on the spec's decisions D5, D6; that a
latched record counts as a next state is log entry 3.) -/
def Obligations.InvariantKeptByStep : Prop :=
  ∀ s t : State, Inv s → step s = .next t → Inv t

/-- The invariant holds right after `Reset`. -/
def Obligations.InvariantHoldsAtReset : Prop := Inv State.reset

/-- The invariant holds in every launch state (R132). -/
def Obligations.InvariantHoldsAtLaunch : Prop :=
  ∀ (image : List Byte) (s : State), launch image = .ok s → Inv s

/-! ### Reset and load -/

/-- 70_reset_and_hazards.md R130: the reset value of every element. The index register, the stack, the stack pointer, the display and the
cleared record are the spec's decision D8; the glyph bytes are the parameter of log entry 2. -/
def Obligations.ResetStateValues : Prop :=
  (∀ r, State.reset.reg r = 0x00#8) ∧ State.reset.index = 0x0000#16 ∧ State.reset.pc = 0x0200#16 ∧
  (∀ k : Fin 16, State.reset.stack[k.val] = 0x0000#16) ∧ State.reset.sp = 0 ∧
  State.reset.dt = 0xFF#8 ∧ State.reset.st = 0xFF#8 ∧ (∀ r c, displayView State.reset r c = false) ∧
  State.reset.fault = none ∧
  (∀ k, k < 80 → State.reset.readByte (0x050 + k) = Config.glyphByte k) ∧
  (∀ a, a < 0x050 ∨ (0x0A0 ≤ a ∧ a < 0x1000) → State.reset.readByte a = 0x00#8)

/-- 70_reset_and_hazards.md R130 (at any time, after a fault too: the spec's decision D19): the host's `Reset` restores every element of
the reset state and clears the record. That the count of draws goes on is the model's choice, log entry 1. -/
def Obligations.HostResetRestoresReset : Prop :=
  ∀ s : State, (hostReset s).fault = none ∧ hostReset s = { State.reset with draws := s.draws }

/-- 70_reset_and_hazards.md R131 (only before the first cycle: the spec's decision D13): an image of at most 3584 bytes is copied verbatim
to 0x200 and upward, every other byte of memory keeps its value, and nothing else changes. -/
def Obligations.LoadCopiesImageVerbatim : Prop :=
  ∀ (image : List Byte) (s : State), Memory.wf s.mem = true → image.length ≤ 3584 →
    ∃ t, load image s = .ok t ∧ t = { s with mem := t.mem } ∧ Memory.wf t.mem = true ∧
      (∀ (k : Nat) (h : k < image.length), t.readByte (0x200 + k) = image[k]) ∧
      (∀ a, a < 0x200 ∨ 0x200 + image.length ≤ a → t.readByte a = s.readByte a)

/-- 60_exceptions.md R116 (nothing is copied, not even a prefix: the spec's decision D21): a longer image is refused with `CapacityError`,
and there is no state after it. -/
def Obligations.OversizedImageIsRefused : Prop :=
  ∀ (image : List Byte) (s : State), 3584 < image.length → load image s = .error .capacityError

/-- 20_memory.md R35: the fetch is big-endian; `n0`, `n1` come from the byte at `pc` and `n2`, `n3` from the byte at `pc + 1`; and the first
byte of a loaded image is the high byte of the first instruction. -/
def Obligations.FetchIsBigEndian : Prop :=
  (∀ s : State,
    (fetchWord s).toNat = 256 * (s.readByte s.pc.toNat).toNat + (s.readByte (s.pc.toNat + 1)).toNat ∧
    (nibble0 (fetchWord s)).toNat = (s.readByte s.pc.toNat).toNat / 16 ∧
    (nibble1 (fetchWord s)).toNat = (s.readByte s.pc.toNat).toNat % 16 ∧
    (nibble2 (fetchWord s)).toNat = (s.readByte (s.pc.toNat + 1)).toNat / 16 ∧
    (nibble3 (fetchWord s)).toNat = (s.readByte (s.pc.toNat + 1)).toNat % 16) ∧
  (∀ (b0 b1 : Byte) (rest : List Byte) (s : State), launch (b0 :: b1 :: rest) = .ok s →
    (fetchWord s).toNat = 256 * b0.toNat + b1.toNat)

/-! ### Control transfer (40_flow.md) -/

/-- 40_flow.md R72, R70: `jump nnn` puts `nnn` into `pc`, whatever `nnn` is, and changes nothing else. (That the target is checked only by
the next fetch is the spec's decision D2.) -/
def Obligations.JumpGoesToAddress : Prop :=
  ∀ (nnn : Imm12) (s : State),
    (∀ w, WordA w 0x1 nnn → decodeWord w = .ok (.jump nnn)) ∧
    ∃ t, exec (.jump nnn) s = .next t ∧ t.pc.toNat = nnn.toNat ∧ OnlyPc s t

/-- 40_flow.md R73 (the pushed value is the advanced `pc`: the spec's decision D1): with room on the stack, `call nnn` pushes `pc`, adds 1 to
`sp` and goes to `nnn`. -/
def Obligations.CallPushesReturnAddress : Prop :=
  ∀ (nnn : Imm12) (s : State),
    (∀ w, WordA w 0x2 nnn → decodeWord w = .ok (.call nnn)) ∧
    (s.sp.val < 16 →
      ∃ t, exec (.call nnn) s = .next t ∧ t.stack[s.sp.val]? = some s.pc ∧
        (∀ k : Fin 16, k.val ≠ s.sp.val → t.stack[k.val] = s.stack[k.val]) ∧
        t.sp.val = s.sp.val + 1 ∧ t.pc.toNat = nnn.toNat ∧ OnlyPcAndStack s t)

/-- 40_flow.md R73, 60_exceptions.md R113 (the latch is the spec's decision D6; that it counts as a next state is log entry 3): `call`
with 16 entries in use latches `StackOverflow` with its own address and word and changes nothing else. -/
def Obligations.CallOnFullStackFaults : Prop :=
  ∀ (nnn : Imm12) (s : State), s.sp = 16 →
    ∃ w : Word, WordA w 0x2 nnn ∧
      exec (.call nnn) s = .next { s with fault := some { code := .stackOverflow, ia := s.pc - 2#16, w := w } }

/-- 40_flow.md R71: with an entry in use, `return` takes 1 from `sp` and puts the popped address into `pc`; the array keeps its
contents. -/
def Obligations.ReturnPopsAddress : Prop :=
  decodeWord 0x00EE#16 = .ok .ret ∧
  ∀ s : State, s.sp ≠ 0 →
    ∃ t, exec .ret s = .next t ∧ t.sp.val + 1 = s.sp.val ∧ s.stack[t.sp.val]? = some t.pc ∧
      (∀ k : Fin 16, t.stack[k.val] = s.stack[k.val]) ∧ OnlyPcAndStack s t

/-- 40_flow.md R71, 60_exceptions.md R114 (the latch is the spec's decision D6; that it counts as a next state is log entry 3): `return`
with an empty stack latches `StackUnderflow` with its own address and the word 0x00EE and changes nothing else. -/
def Obligations.ReturnOnEmptyStackFaults : Prop :=
  ∀ s : State, s.sp = 0 →
    exec .ret s = .next { s with fault := some { code := .stackUnderflow, ia := s.pc - 2#16, w := 0x00EE#16 } }

/-- 95_test_vectors.md X4 (read as 90_conflicts.md C6 reads it): after a `call`, a `return` on the same stack puts `pc` back to its value on
entry to the call and leaves `sp` as before the call. -/
def Obligations.CallThenReturnRoundTrip : Prop :=
  ∀ (nnn : Imm12) (s t u : State), s.sp.val < 16 → exec (.call nnn) s = .next t → u.stack = t.stack → u.sp = t.sp →
    ∃ v, exec .ret u = .next v ∧ v.pc = s.pc ∧ v.sp = s.sp

/-- 40_flow.md R74: `jump-offset nnn` puts the sum of `nnn` and the unsigned byte `V[0]` into `pc`. (That a sum of 0x1000 or more is not
reduced is the spec's decision D22.) -/
def Obligations.JumpOffsetAddsRegisterZero : Prop :=
  ∀ (nnn : Imm12) (s : State),
    (∀ w, WordA w 0xB nnn → decodeWord w = .ok (.jumpOffset nnn)) ∧
    ∃ t, exec (.jumpOffset nnn) s = .next t ∧ t.pc.toNat = nnn.toNat + (s.reg 0).toNat ∧ OnlyPc s t

/-! ### Conditional skips (41_skip.md) -/

/-- 41_skip.md R76. -/
def Obligations.SkipIfEqualImmediate : Prop :=
  ∀ (x : RegIdx) (kk : Byte) (s : State),
    (∀ w, WordI w 0x3 x kk → decodeWord w = .ok (.skipEqImm x kk)) ∧
    ∃ t, exec (.skipEqImm x kk) s = .next t ∧
      (s.reg x = kk → t.pc = s.pc + 2#16) ∧ (s.reg x ≠ kk → t.pc = s.pc) ∧ OnlyPc s t

/-- 41_skip.md R77, with its complement clause: on one state exactly one of `3xkk`, `4xkk` skips. -/
def Obligations.SkipIfNotEqualImmediate : Prop :=
  ∀ (x : RegIdx) (kk : Byte) (s : State),
    (∀ w, WordI w 0x4 x kk → decodeWord w = .ok (.skipNeImm x kk)) ∧
    ∃ t, exec (.skipNeImm x kk) s = .next t ∧
      (s.reg x ≠ kk → t.pc = s.pc + 2#16) ∧ (s.reg x = kk → t.pc = s.pc) ∧ OnlyPc s t ∧
      ∃ u, exec (.skipEqImm x kk) s = .next u ∧ (t.pc = s.pc + 2#16 ↔ u.pc ≠ s.pc + 2#16)

/-- 41_skip.md R78, with the invalid last nibbles. -/
def Obligations.SkipIfRegistersEqual : Prop :=
  ∀ (x y : RegIdx) (s : State),
    (∀ w, WordR w 0x5 x y 0 → decodeWord w = .ok (.skipEqReg x y)) ∧
    (∀ w f, f ≠ 0 → WordR w 0x5 x y f → decodeWord w = .error (.invalidOpcode w)) ∧
    ∃ t, exec (.skipEqReg x y) s = .next t ∧
      (s.reg x = s.reg y → t.pc = s.pc + 2#16) ∧ (s.reg x ≠ s.reg y → t.pc = s.pc) ∧
      (x = y → t.pc = s.pc + 2#16) ∧ OnlyPc s t

/-- 41_skip.md R79, with the invalid last nibbles. -/
def Obligations.SkipIfRegistersNotEqual : Prop :=
  ∀ (x y : RegIdx) (s : State),
    (∀ w, WordR w 0x9 x y 0 → decodeWord w = .ok (.skipNeReg x y)) ∧
    (∀ w f, f ≠ 0 → WordR w 0x9 x y f → decodeWord w = .error (.invalidOpcode w)) ∧
    ∃ t, exec (.skipNeReg x y) s = .next t ∧
      (s.reg x ≠ s.reg y → t.pc = s.pc + 2#16) ∧ (s.reg x = s.reg y → t.pc = s.pc) ∧
      (x = y → t.pc = s.pc) ∧ OnlyPc s t

/-! ### Register loads, arithmetic, logic, shifts, random (42_alu.md) -/

/-- 42_alu.md R81. -/
def Obligations.LoadImmediateWritesByte : Prop :=
  ∀ (x : RegIdx) (kk : Byte) (s : State),
    (∀ w, WordI w 0x6 x kk → decodeWord w = .ok (.loadImm x kk)) ∧
    ∃ t, exec (.loadImm x kk) s = .next t ∧ t.reg x = kk ∧ KeepsRegsBut (fun r => r = x) s t ∧ OnlyRegs s t

/-- 42_alu.md R82: wraps, and writes no flag. -/
def Obligations.AddImmediateWraps : Prop :=
  ∀ (x : RegIdx) (kk : Byte) (s : State),
    (∀ w, WordI w 0x7 x kk → decodeWord w = .ok (.addImm x kk)) ∧
    ∃ t, exec (.addImm x kk) s = .next t ∧ (t.reg x).toNat = ((s.reg x).toNat + kk.toNat) % 256 ∧
      KeepsRegsBut (fun r => r = x) s t ∧ OnlyRegs s t

/-- 42_alu.md R83. -/
def Obligations.CopyCopiesRegister : Prop :=
  ∀ (x y : RegIdx) (s : State),
    (∀ w, WordR w 0x8 x y 0x0 → decodeWord w = .ok (.copy x y)) ∧
    ∃ t, exec (.copy x y) s = .next t ∧ t.reg x = s.reg y ∧ KeepsRegsBut (fun r => r = x) s t ∧ OnlyRegs s t

/-- 42_alu.md R84: bit by bit, and no flag. -/
def Obligations.OrIsBitwise : Prop :=
  ∀ (x y : RegIdx) (s : State),
    (∀ w, WordR w 0x8 x y 0x1 → decodeWord w = .ok (.orReg x y)) ∧
    ∃ t, exec (.orReg x y) s = .next t ∧
      (∀ b, b < 8 → (t.reg x).getLsbD b = ((s.reg x).getLsbD b || (s.reg y).getLsbD b)) ∧
      KeepsRegsBut (fun r => r = x) s t ∧ OnlyRegs s t

/-- 42_alu.md R85: bit by bit, and no flag. -/
def Obligations.AndIsBitwise : Prop :=
  ∀ (x y : RegIdx) (s : State),
    (∀ w, WordR w 0x8 x y 0x2 → decodeWord w = .ok (.andReg x y)) ∧
    ∃ t, exec (.andReg x y) s = .next t ∧
      (∀ b, b < 8 → (t.reg x).getLsbD b = ((s.reg x).getLsbD b && (s.reg y).getLsbD b)) ∧
      KeepsRegsBut (fun r => r = x) s t ∧ OnlyRegs s t

/-- 42_alu.md R86: bit by bit, no flag, and `x = y` clears the register. -/
def Obligations.XorIsBitwise : Prop :=
  ∀ (x y : RegIdx) (s : State),
    (∀ w, WordR w 0x8 x y 0x3 → decodeWord w = .ok (.xorReg x y)) ∧
    ∃ t, exec (.xorReg x y) s = .next t ∧
      (∀ b, b < 8 → (t.reg x).getLsbD b = ((s.reg x).getLsbD b ^^ (s.reg y).getLsbD b)) ∧
      (x = y → t.reg x = 0x00#8) ∧ KeepsRegsBut (fun r => r = x) s t ∧ OnlyRegs s t

/-- 42_alu.md R87. For `x = 0xF` the flag is what stays: the write order is the spec's decision D4 (R80), log entry 4. -/
def Obligations.AddWithCarryGivesSumAndCarry : Prop :=
  ∀ (x y : RegIdx) (s : State),
    (∀ w, WordR w 0x8 x y 0x4 → decodeWord w = .ok (.addCarry x y)) ∧
    ∃ t, exec (.addCarry x y) s = .next t ∧
      (x ≠ 0xF → (t.reg x).toNat = ((s.reg x).toNat + (s.reg y).toNat) % 256) ∧
      ((s.reg x).toNat + (s.reg y).toNat > 255 → t.reg 0xF = 0x01#8) ∧
      ((s.reg x).toNat + (s.reg y).toNat ≤ 255 → t.reg 0xF = 0x00#8) ∧
      KeepsRegsBut (fun r => r = x ∨ r = 0xF) s t ∧ OnlyRegs s t

/-- 42_alu.md R88. For `x = 0xF` the flag is what stays: the write order is the spec's decision D4 (R80), log entry 4. -/
def Obligations.SubWithBorrowGivesDifference : Prop :=
  ∀ (x y : RegIdx) (s : State),
    (∀ w, WordR w 0x8 x y 0x5 → decodeWord w = .ok (.subBorrow x y)) ∧
    ∃ t, exec (.subBorrow x y) s = .next t ∧
      (x ≠ 0xF → (t.reg x).toNat = ((s.reg x).toNat + 256 - (s.reg y).toNat) % 256) ∧
      ((s.reg x).toNat ≥ (s.reg y).toNat → t.reg 0xF = 0x01#8) ∧
      ((s.reg x).toNat < (s.reg y).toNat → t.reg 0xF = 0x00#8) ∧
      KeepsRegsBut (fun r => r = x ∨ r = 0xF) s t ∧ OnlyRegs s t

/-- 42_alu.md R89; the value of `y` makes no difference. For `x = 0xF` the flag is what stays: the write order is the spec's decision D4
(R80), log entry 4. -/
def Obligations.ShiftRightHalves : Prop :=
  ∀ (x y : RegIdx) (s : State),
    (∀ w, WordR w 0x8 x y 0x6 → decodeWord w = .ok (.shiftRight x y)) ∧
    (∀ z, exec (.shiftRight x z) s = exec (.shiftRight x y) s) ∧
    ∃ t, exec (.shiftRight x y) s = .next t ∧
      (x ≠ 0xF → (t.reg x).toNat = (s.reg x).toNat / 2) ∧ (t.reg 0xF).toNat = (s.reg x).toNat % 2 ∧
      KeepsRegsBut (fun r => r = x ∨ r = 0xF) s t ∧ OnlyRegs s t

/-- 42_alu.md R90. For `x = 0xF` the flag is what stays: the write order is the spec's decision D4 (R80), log entry 4. -/
def Obligations.SubnWithBorrowGivesReversedDifference : Prop :=
  ∀ (x y : RegIdx) (s : State),
    (∀ w, WordR w 0x8 x y 0x7 → decodeWord w = .ok (.subnBorrow x y)) ∧
    ∃ t, exec (.subnBorrow x y) s = .next t ∧
      (x ≠ 0xF → (t.reg x).toNat = ((s.reg y).toNat + 256 - (s.reg x).toNat) % 256) ∧
      ((s.reg y).toNat ≥ (s.reg x).toNat → t.reg 0xF = 0x01#8) ∧
      ((s.reg y).toNat < (s.reg x).toNat → t.reg 0xF = 0x00#8) ∧
      KeepsRegsBut (fun r => r = x ∨ r = 0xF) s t ∧ OnlyRegs s t

/-- 42_alu.md R91; the value of `y` makes no difference, and result and flag are those of `add-with-carry x x`. For `x = 0xF` the flag is
what stays: the write order is the spec's decision D4 (R80), log entry 4. -/
def Obligations.ShiftLeftDoubles : Prop :=
  ∀ (x y : RegIdx) (s : State),
    (∀ w, WordR w 0x8 x y 0xE → decodeWord w = .ok (.shiftLeft x y)) ∧
    (∀ z, exec (.shiftLeft x z) s = exec (.shiftLeft x y) s) ∧
    exec (.shiftLeft x y) s = exec (.addCarry x x) s ∧
    ∃ t, exec (.shiftLeft x y) s = .next t ∧
      (x ≠ 0xF → (t.reg x).toNat = 2 * (s.reg x).toNat % 256) ∧ (t.reg 0xF).toNat = (s.reg x).toNat / 128 ∧
      KeepsRegsBut (fun r => r = x ∨ r = 0xF) s t ∧ OnlyRegs s t

/-- 42_alu.md R92, with the byte of the random source as a free value: `Config.randByte` at the count of draws (log entry 1, the model's own
form of the spec's decision D11). One byte is consumed; the old `V[x]` plays no part. -/
def Obligations.RandomAndMasksOneDraw : Prop :=
  ∀ (x : RegIdx) (kk : Byte) (s : State),
    (∀ w, WordI w 0xC x kk → decodeWord w = .ok (.randomAnd x kk)) ∧
    ∃ t, exec (.randomAnd x kk) s = .next t ∧
      (∀ b, b < 8 → (t.reg x).getLsbD b = ((Config.randByte s.draws).getLsbD b && kk.getLsbD b)) ∧
      KeepsRegsBut (fun r => r = x) s t ∧ t.draws = s.draws + 1 ∧
      t.pc = s.pc ∧ t.index = s.index ∧ KeepsStack s t ∧ KeepsDisplay s t ∧ KeepsMemory s t ∧ KeepsTimers s t ∧
      t.fault = s.fault

/-! ### Index register and framebuffer engine (43_index_draw.md) -/

/-- 43_index_draw.md R100, with its clause that no other instruction writes `I`. -/
def Obligations.LoadIndexIsTheOnlyWriterOfIndex : Prop :=
  (∀ (nnn : Imm12) (s : State),
    (∀ w, WordA w 0xA nnn → decodeWord w = .ok (.loadIndex nnn)) ∧
    ∃ t, exec (.loadIndex nnn) s = .next t ∧ t.index.toNat = nnn.toNat ∧
      KeepsRegs s t ∧ t.pc = s.pc ∧ KeepsStack s t ∧ KeepsDisplay s t ∧ KeepsRest s t) ∧
  (∀ (i : Instr) (s t : State), (∀ nnn, i ≠ .loadIndex nnn) → exec i s = .next t → t.index = s.index)

/-- 43_index_draw.md R101. -/
def Obligations.ClearTurnsEveryCellOff : Prop :=
  decodeWord 0x00E0#16 = .ok .clear ∧
  ∀ s : State, ∃ t, exec .clear s = .next t ∧ (∀ r c, displayView t r c = false) ∧
    KeepsRegs s t ∧ t.pc = s.pc ∧ t.index = s.index ∧ KeepsStack s t ∧ KeepsRest s t

/-- 43_index_draw.md R102 in the closed form the spec derives in R103: with the sprite's bytes in memory (the range check is the spec's
decision D3), a cell is toggled exactly when a 1 bit of the sprite falls on it, and `VF` ends 1 exactly when such a cell was on, 0
otherwise, also when `n = 0` (D18) and also when `x` or `y` is 0xF (D4, log entry 4). -/
def Obligations.DrawSpriteTogglesCoveredCells : Prop :=
  ∀ (x y : RegIdx) (n : RowCount) (s : State),
    (∀ w, WordR w 0xD x y n → decodeWord w = .ok (.drawSprite x y n)) ∧
    (SpriteInMemory s n →
      ∃ t, exec (.drawSprite x y n) s = .next t ∧
        (∀ r c, SpriteCovers s x y n r c → displayView t r c = !displayView s r c) ∧
        (∀ r c, ¬ SpriteCovers s x y n r c → displayView t r c = displayView s r c) ∧
        ((∃ r c, SpriteCovers s x y n r c ∧ displayView s r c = true) → t.reg 0xF = 0x01#8) ∧
        ((¬ ∃ r c, SpriteCovers s x y n r c ∧ displayView s r c = true) → t.reg 0xF = 0x00#8) ∧
        KeepsRegsBut (fun r => r = 0xF) s t ∧ t.pc = s.pc ∧ t.index = s.index ∧ KeepsStack s t ∧ KeepsRest s t)

/-- 20_memory.md R37, 60_exceptions.md R115 cause (b) (the spec's decision D3; that the latched record counts as a next state is log
entry 3): a sprite that does not lie in memory latches `AddressError`
with the address and word of the instruction, and neither the display nor `VF` changes. -/
def Obligations.DrawOutsideMemoryFaults : Prop :=
  ∀ (x y : RegIdx) (n : RowCount) (s : State), 0 < n.val → s.index.toNat + n.val - 1 > 0x0FFF →
    ∃ w : Word, WordR w 0xD x y n ∧
      exec (.drawSprite x y n) s = .next { s with fault := some { code := .addressError, ia := s.pc - 2#16, w := w } }

/-- 43_index_draw.md R104, which the spec derives: a second draw that sees the same `V[x]`, `V[y]`, `I`, memory and the drawn display restores
every cell, and sets `VF` to 1 exactly when the first draw turned some cell on. -/
def Obligations.DoubleDrawRestoresDisplay : Prop :=
  ∀ (x y : RegIdx) (n : RowCount) (s t u : State), SpriteInMemory s n → exec (.drawSprite x y n) s = .next t →
    u.disp = t.disp → u.reg x = s.reg x → u.reg y = s.reg y → u.index = s.index → u.mem = s.mem →
    ∃ v, exec (.drawSprite x y n) u = .next v ∧ KeepsDisplay s v ∧
      (v.reg 0xF = 0x01#8 ↔ ∃ r c, SpriteCovers s x y n r c ∧ displayView s r c = false)

/-! ### Whole-machine rules -/

/-- 10_state.md R11: an instruction outside the six that does not name `VF` as its destination leaves `VF` alone; one of the six that
completes leaves 0 or 1 there (for a destination `VF` by the spec's decision D4, log entry 4). -/
def Obligations.OnlySixInstructionsWriteTheFlag : Prop :=
  ∀ (i : Instr) (s t : State), exec i s = .next t →
    (writesFlag i = false → destination i ≠ some 0xF → t.reg 0xF = s.reg 0xF) ∧
    (writesFlag i = true → s.fault = none → t.fault = none → t.reg 0xF = 0x00#8 ∨ t.reg 0xF = 0x01#8)

/-- 10_state.md R10 (its list of writers): a register changes only as the destination of a result or, as `V[0xF]`, as the flag. -/
def Obligations.RegistersChangeOnlyAsDestinations : Prop :=
  ∀ (i : Instr) (s t : State) (r : RegIdx), exec i s = .next t →
    destination i ≠ some r → ¬ (writesFlag i = true ∧ r = 0xF) → t.reg r = s.reg r

/-- 10_state.md R14, R15: only `call` and `return` write the call stack or the stack pointer, and `return` only the pointer. -/
def Obligations.OnlyCallAndReturnMoveTheStack : Prop :=
  ∀ (i : Instr) (s t : State), exec i s = .next t →
    ((∀ nnn, i ≠ .call nnn) → t.stack = s.stack) ∧ ((∀ nnn, i ≠ .call nnn) → i ≠ .ret → t.sp = s.sp)

/-- 10_state.md R18, 20_memory.md R39: only `clear` and `draw-sprite` write the display. -/
def Obligations.OnlyClearAndDrawChangeTheDisplay : Prop :=
  ∀ (i : Instr) (s t : State), i ≠ .clear → (∀ x y n, i ≠ .drawSprite x y n) → exec i s = .next t → t.disp = s.disp

/-- 60_exceptions.md R123: no instruction reads or writes a timer, so with other timer values each does the same and leaves those. That
`exec` answers a next state in every state is the model's choice, log entry 3 (on the spec's decisions D5, D6): a latched record counts as
a next state, so `call` on a full stack, `return` on an empty one and `draw-sprite` outside memory answer one too, with the record
latched and nothing of the instruction's own effect. -/
def Obligations.NoInstructionStopsOrSeesTimers : Prop :=
  ∀ (i : Instr) (s : State), ∃ t, exec i s = .next t ∧
    ∀ d e : Byte, exec i { s with dt := d, st := e } = .next { t with dt := d, st := e }

/-- 10_state.md R21 (in the form of log entry 1): an instruction other than `random-and` ignores the random source and does not advance it. -/
def Obligations.OtherInstructionsIgnoreRandomSource : Prop :=
  ∀ (i : Instr) (s t : State) (d : Nat), (∀ x kk, i ≠ .randomAnd x kk) → exec i s = .next t →
    t.draws = s.draws ∧ exec i { s with draws := d } = .next { t with draws := d }

/-- 70_reset_and_hazards.md R136 (b) (the spec's decision D15): at a self-jump every later cycle leaves all state as it is but for the timers,
which run down and stop at 0. -/
def Obligations.SelfJumpRunsForEver : Prop :=
  ∀ (k : Nat) (s : State), SelfJump s →
    ∃ t, Host.Core.run Sys2Proof.core k s = .next t ∧ t = { s with dt := t.dt, st := t.st } ∧
      t.dt.toNat = s.dt.toNat - k ∧ t.st.toNat = s.st.toNat - k
end

