-- ==== Sys2Proof/Laws/Arith.lean ====
section
/-! SUPPORT. The arithmetic operations as numbers. -/

namespace Sys2Proof.Machine

theorem toNat_wrapAdd (a b : Byte) : (wrapAdd a b).toNat = (a.toNat + b.toNat) % 256 := by
  simp [wrapAdd, BitVec.toNat_ofNat]

theorem toNat_wrapSub (a b : Byte) : (wrapSub a b).toNat = (a.toNat + 256 - b.toNat) % 256 := by
  have ha := a.isLt
  have hb := b.isLt
  simp only [wrapSub, BitVec.toNat_ofInt]
  omega

theorem toNat_shiftDown (a : Byte) : (shiftDown a).toNat = a.toNat / 2 := by
  have := a.isLt
  simp only [shiftDown, BitVec.toNat_ofNat]
  omega

theorem toNat_shiftUp (a : Byte) : (shiftUp a).toNat = (2 * a.toNat) % 256 := by
  simp [shiftUp, BitVec.toNat_ofNat]

theorem lowBit_eq (a : Byte) : lowBit a = decide (a.toNat % 2 = 1) := by
  simp [lowBit, BitVec.getLsbD, Nat.testBit_zero]

theorem highBit_eq (a : Byte) : highBit a = decide (a.toNat ≥ 128) := by
  have := a.isLt
  have h : a.toNat / 128 < 2 := by omega
  simp only [highBit, BitVec.getLsbD, Nat.testBit_eq_decide_div_mod_eq]
  congr 1
  exact propext ⟨fun _ => by omega, fun _ => by omega⟩

@[simp] theorem flagByte_true : flagByte true = 0x01#8 := rfl

@[simp] theorem flagByte_false : flagByte false = 0x00#8 := rfl

theorem toNat_addrOf (nnn : Imm12) : (addrOf nnn).toNat = nnn.toNat := by
  have := nnn.isLt
  simp only [addrOf, BitVec.toNat_setWidth]
  omega

theorem toNat_wordOf (b : Byte) : (wordOf b).toNat = b.toNat := by
  have := b.isLt
  simp only [wordOf, BitVec.toNat_setWidth]
  omega

/-- A timer tick is a subtraction that stops at 0. -/
theorem toNat_tickTimer (t : Byte) : (tickTimer t).toNat = t.toNat - 1 := by
  have := t.isLt
  unfold tickTimer
  split
  · next h => simp [h]
  · next h =>
    have : t.toNat ≠ 0 := fun e => h (BitVec.eq_of_toNat_eq (by simpa using e))
    rw [BitVec.toNat_sub]
    simp
    omega

end Sys2Proof.Machine
end

