-- ==== Sys2Proof/Laws/Decode.lean ====
section
/-! SUPPORT. The nibbles and the bits of each format, and what is true of instructions by their types. -/

namespace Sys2Proof

/-- Every instruction is well formed: the operand types hold each field to its width (R52). -/
theorem Laws.instr_wellFormed (i : Instr) : i.wellFormed = true := by
  have hb : ∀ {w : Nat} (v : BitVec w), v.toNat < 2 ^ w := fun v => v.isLt
  cases i with
  | clear => rfl
  | ret => rfl
  | jump a => simpa [Instr.wellFormed] using hb a
  | call a => simpa [Instr.wellFormed] using hb a
  | loadIndex a => simpa [Instr.wellFormed] using hb a
  | jumpOffset a => simpa [Instr.wellFormed] using hb a
  | skipEqImm x k => simpa [Instr.wellFormed] using hb k
  | skipNeImm x k => simpa [Instr.wellFormed] using hb k
  | loadImm x k => simpa [Instr.wellFormed] using hb k
  | addImm x k => simpa [Instr.wellFormed] using hb k
  | randomAnd x k => simpa [Instr.wellFormed] using hb k
  | skipEqReg x y => simp [Instr.wellFormed]
  | copy x y => simp [Instr.wellFormed]
  | orReg x y => simp [Instr.wellFormed]
  | andReg x y => simp [Instr.wellFormed]
  | xorReg x y => simp [Instr.wellFormed]
  | addCarry x y => simp [Instr.wellFormed]
  | subBorrow x y => simp [Instr.wellFormed]
  | shiftRight x y => simp [Instr.wellFormed]
  | subnBorrow x y => simp [Instr.wellFormed]
  | shiftLeft x y => simp [Instr.wellFormed]
  | skipNeReg x y => simp [Instr.wellFormed]
  | drawSprite x y n => simp [Instr.wellFormed]

/-- Bits of a concatenation, at the width the concatenation itself has. -/
theorem getLsbD_four (a b c d : Nibble) (i : Nat) : (a ++ b ++ c ++ d).getLsbD i =
    if i < 4 then d.getLsbD i else if i < 8 then c.getLsbD (i - 4)
    else if i < 12 then b.getLsbD (i - 8) else a.getLsbD (i - 12) := by
  simp only [BitVec.getLsbD_append]
  by_cases h0 : i < 4
  · simp [h0]
  · by_cases h1 : i < 8
    · simp [h0, h1, show i - 4 < 4 by omega]
    · by_cases h2 : i < 12
      · simp [h0, h1, h2, show ¬ i - 4 < 4 by omega, show i - 4 - 4 = i - 8 by omega, show i - 8 < 4 by omega]
      · simp [h0, h1, h2, show ¬ i - 4 < 4 by omega, show ¬ i - 4 - 4 < 4 by omega, show i - 4 - 4 - 4 = i - 12 by omega]

/-- The nibbles of four concatenated nibbles, most significant first (R51). -/
theorem nibbles_append (a b c d : Nibble) :
    nibble0 (a ++ b ++ c ++ d : Word) = a ∧ nibble1 (a ++ b ++ c ++ d : Word) = b ∧
    nibble2 (a ++ b ++ c ++ d : Word) = c ∧ nibble3 (a ++ b ++ c ++ d : Word) = d := by
  refine ⟨?_, ?_, ?_, ?_⟩ <;>
    (apply BitVec.eq_of_getLsbD_eq
     intro i hi
     simp only [nibble0, nibble1, nibble2, nibble3, BitVec.getLsbD_extractLsb', hi, decide_true, Bool.true_and]
     refine (getLsbD_four a b c d _).trans ?_
     have hi' : i < 4 := hi
     interval_cases i <;> rfl)

/-- A word is the concatenation of its nibbles (R51, R54). -/
theorem word_eq_nibbles (w : Word) : (nibble0 w ++ nibble1 w ++ nibble2 w ++ nibble3 w : Word) = w := by
  apply BitVec.eq_of_getLsbD_eq
  intro i hi
  refine (getLsbD_four _ _ _ _ _).trans ?_
  have hi' : i < 16 := hi
  interval_cases i <;> simp [nibble0, nibble1, nibble2, nibble3]

/-- Format A is a concatenation of four nibbles. -/
theorem formatA_eq (op a b c : Nibble) : formatA op (a ++ b ++ c : Imm12) = (op ++ a ++ b ++ c : Word) := by
  apply BitVec.eq_of_getLsbD_eq
  intro i hi
  refine Eq.trans ?_ (getLsbD_four _ _ _ _ _).symm
  refine (BitVec.getLsbD_append (x := op) (y := (a ++ b ++ c : BitVec 12)) (i := i)).trans ?_
  have e : (a ++ b ++ c : BitVec 12).getLsbD i =
      if i < 4 then c.getLsbD i else if i < 8 then b.getLsbD (i - 4) else a.getLsbD (i - 8) := by
    refine (BitVec.getLsbD_append (x := a ++ b) (y := c) (i := i)).trans ?_
    split
    · rfl
    · refine (BitVec.getLsbD_append (x := a) (y := b) (i := i - 4)).trans ?_
      by_cases h1 : i < 8
      · simp [h1, show i - 4 < 4 by omega]
      · simp [h1, show ¬ i - 4 < 4 by omega, show i - 4 - 4 = i - 8 by omega]
  rw [e]
  by_cases h0 : i < 4
  · simp [h0, show i < 12 by omega]
  · by_cases h1 : i < 8
    · simp [h0, h1, show i < 12 by omega]
    · by_cases h2 : i < 12 <;> simp [h0, h1, h2]

/-- Format I is a concatenation of four nibbles. -/
theorem formatI_eq (op : Nibble) (x : RegIdx) (a b : Nibble) :
    formatI op x (a ++ b : Byte) = (op ++ regNibble x ++ a ++ b : Word) := by
  apply BitVec.eq_of_getLsbD_eq
  intro i hi
  refine Eq.trans ?_ (getLsbD_four _ _ _ _ _).symm
  refine (BitVec.getLsbD_append (x := op ++ regNibble x) (y := (a ++ b : BitVec 8)) (i := i)).trans ?_
  have e : (a ++ b : BitVec 8).getLsbD i = if i < 4 then b.getLsbD i else a.getLsbD (i - 4) :=
    BitVec.getLsbD_append (x := a) (y := b) (i := i)
  rw [e, BitVec.getLsbD_append]
  by_cases h0 : i < 4
  · simp [h0, show i < 8 by omega]
  · by_cases h1 : i < 8
    · simp [h0, h1]
    · by_cases h2 : i < 12
      · simp [h0, h1, h2, show i - 8 < 4 by omega]
      · simp [h0, h1, h2, show ¬ i - 8 < 4 by omega, show i - 8 - 4 = i - 12 by omega]

@[simp] theorem nibbleReg_regNibble (x : RegIdx) : nibbleReg (regNibble x) = x := rfl

@[simp] theorem regNibble_nibbleReg (v : Nibble) : regNibble (nibbleReg v) = v := rfl

/-! ### The fields of each format (R53) -/

@[simp] theorem nibble0_formatR (op f : Nibble) (x y : RegIdx) : nibble0 (formatR op x y f) = op := (nibbles_append _ _ _ _).1
@[simp] theorem fieldX_formatR (op f : Nibble) (x y : RegIdx) : fieldX (formatR op x y f) = x := by
  rw [fieldX, formatR, (nibbles_append _ _ _ _).2.1, nibbleReg_regNibble]
@[simp] theorem fieldY_formatR (op f : Nibble) (x y : RegIdx) : fieldY (formatR op x y f) = y := by
  rw [fieldY, formatR, (nibbles_append _ _ _ _).2.2.1, nibbleReg_regNibble]
@[simp] theorem nibble3_formatR (op f : Nibble) (x y : RegIdx) : nibble3 (formatR op x y f) = f := (nibbles_append _ _ _ _).2.2.2

theorem imm12_nibbles (v : Imm12) : v.extractLsb' 8 4 ++ v.extractLsb' 4 4 ++ v.extractLsb' 0 4 = v := by
  apply BitVec.eq_of_getLsbD_eq
  intro i hi
  have hi' : i < 12 := hi
  rw [BitVec.getLsbD_append, BitVec.getLsbD_append]
  interval_cases i <;> simp

theorem byte_nibbles (v : Byte) : v.extractLsb' 4 4 ++ v.extractLsb' 0 4 = v := by
  apply BitVec.eq_of_getLsbD_eq
  intro i hi
  have hi' : i < 8 := hi
  rw [BitVec.getLsbD_append]
  interval_cases i <;> simp

@[simp] theorem fieldN_formatR (op : Nibble) (x y : RegIdx) (n : RowCount) : fieldN (formatR op x y (BitVec.ofFin n)) = n := by
  rw [fieldN, nibble3_formatR]

/-- An immediate address is three nibbles. -/
theorem imm12_eq_nibbles (v : Imm12) : ∃ a b c : Nibble, (a ++ b ++ c : Imm12) = v := by
  refine ⟨v.extractLsb' 8 4, v.extractLsb' 4 4, v.extractLsb' 0 4, ?_⟩
  exact imm12_nibbles v

/-- An immediate byte is two nibbles. -/
theorem byte_eq_nibbles (v : Byte) : ∃ a b : Nibble, (a ++ b : Byte) = v := by
  refine ⟨v.extractLsb' 4 4, v.extractLsb' 0 4, ?_⟩
  exact byte_nibbles v

@[simp] theorem nibble0_formatA (op : Nibble) (nnn : Imm12) : nibble0 (formatA op nnn) = op := by
  obtain ⟨a, b, c, rfl⟩ := imm12_eq_nibbles nnn
  rw [formatA_eq, (nibbles_append _ _ _ _).1]
@[simp] theorem fieldNNN_formatA (op : Nibble) (nnn : Imm12) : fieldNNN (formatA op nnn) = nnn := by
  obtain ⟨a, b, c, rfl⟩ := imm12_eq_nibbles nnn
  obtain ⟨-, h1, h2, h3⟩ := nibbles_append op a b c
  rw [formatA_eq, fieldNNN, h1, h2, h3]

@[simp] theorem nibble0_formatI (op : Nibble) (x : RegIdx) (kk : Byte) : nibble0 (formatI op x kk) = op := by
  obtain ⟨a, b, rfl⟩ := byte_eq_nibbles kk
  rw [formatI_eq, (nibbles_append _ _ _ _).1]
@[simp] theorem fieldX_formatI (op : Nibble) (x : RegIdx) (kk : Byte) : fieldX (formatI op x kk) = x := by
  obtain ⟨a, b, rfl⟩ := byte_eq_nibbles kk
  rw [formatI_eq, fieldX, (nibbles_append _ _ _ _).2.1, nibbleReg_regNibble]
@[simp] theorem fieldKK_formatI (op : Nibble) (x : RegIdx) (kk : Byte) : fieldKK (formatI op x kk) = kk := by
  obtain ⟨a, b, rfl⟩ := byte_eq_nibbles kk
  obtain ⟨-, -, h2, h3⟩ := nibbles_append op (regNibble x) a b
  rw [formatI_eq, fieldKK, h2, h3]

/-! ### The fields as numbers (R52, R54) -/

theorem toNat_nibble0 (w : Word) : (nibble0 w).toNat = w.toNat / 4096 := by
  have := w.isLt
  simp only [nibble0, BitVec.extractLsb'_toNat, Nat.shiftRight_eq_div_pow]
  omega

theorem toNat_nibble1 (w : Word) : (nibble1 w).toNat = w.toNat / 256 % 16 := by
  simp [nibble1, BitVec.extractLsb'_toNat, Nat.shiftRight_eq_div_pow]

theorem toNat_nibble2 (w : Word) : (nibble2 w).toNat = w.toNat / 16 % 16 := by
  simp [nibble2, BitVec.extractLsb'_toNat, Nat.shiftRight_eq_div_pow]

theorem toNat_nibble3 (w : Word) : (nibble3 w).toNat = w.toNat % 16 := by
  simp [nibble3, BitVec.extractLsb'_toNat]

theorem val_fieldX (w : Word) : (fieldX w).val = w.toNat / 256 % 16 := toNat_nibble1 w

theorem val_fieldY (w : Word) : (fieldY w).val = w.toNat / 16 % 16 := toNat_nibble2 w

theorem val_fieldN (w : Word) : (fieldN w).val = w.toNat % 16 := toNat_nibble3 w

theorem toNat_fieldKK (w : Word) : (fieldKK w).toNat = w.toNat % 256 := by
  have h : (fieldKK w).toNat = (nibble2 w).toNat <<< 4 ||| (nibble3 w).toNat := BitVec.toNat_append ..
  rw [h, ← Nat.shiftLeft_add_eq_or_of_lt (nibble3 w).isLt, Nat.shiftLeft_eq, toNat_nibble2, toNat_nibble3]
  omega

theorem toNat_fieldNNN (w : Word) : (fieldNNN w).toNat = w.toNat % 4096 := by
  have h : (fieldNNN w).toNat = (nibble1 w ++ nibble2 w).toNat <<< 4 ||| (nibble3 w).toNat := BitVec.toNat_append ..
  have h' : (nibble1 w ++ nibble2 w).toNat = (nibble1 w).toNat <<< 4 ||| (nibble2 w).toNat := BitVec.toNat_append ..
  rw [h, h', ← Nat.shiftLeft_add_eq_or_of_lt (nibble3 w).isLt, ← Nat.shiftLeft_add_eq_or_of_lt (nibble2 w).isLt,
    Nat.shiftLeft_eq, Nat.shiftLeft_eq, toNat_nibble1, toNat_nibble2, toNat_nibble3]
  omega

/-- The two bytes of a word, as numbers (R35). -/
theorem toNat_wordOfBytes (hi lo : Byte) : (wordOfBytes hi lo).toNat = 256 * hi.toNat + lo.toNat := by
  have h : (wordOfBytes hi lo).toNat = hi.toNat <<< 8 ||| lo.toNat := BitVec.toNat_append ..
  rw [h, ← Nat.shiftLeft_add_eq_or_of_lt lo.isLt, Nat.shiftLeft_eq]
  omega

/-- The decoder refuses a word by one name only, with the word. -/
theorem decodeWord_error {w : Word} {e : DecodeError} (h : decodeWord w = .error e) : e = .invalidOpcode w := by
  have hz : ∀ {e}, decodeZero w = .error e → e = .invalidOpcode w := by
    intro e h
    unfold decodeZero at h
    repeat' split at h
    all_goals simp_all
  have hp : ∀ {mk e}, decodePair mk w = .error e → e = .invalidOpcode w := by
    intro mk e h
    unfold decodePair at h
    split at h <;> simp_all
  have ha : ∀ {e}, decodeAlu w = .error e → e = .invalidOpcode w := by
    intro e h
    unfold decodeAlu at h
    split at h <;> simp_all
  unfold decodeWord at h
  split at h
  case h_1 => exact hz h
  case h_6 => exact hp h
  case h_9 => exact ha h
  case h_10 => exact hp h
  all_goals simp_all

/-! ### The masks of the opcode map (R55) -/

/-- The mask 0xF000 keeps `n0`. -/
theorem and_mask_high (w v : Word) (hv : v.toNat % 4096 = 0) :
    ((w &&& 0xF000#16) == v) = decide ((nibble0 w).toNat = v.toNat / 4096) := by
  have e : (w &&& 0xF000#16).toNat = w.toNat / 4096 * 4096 := by
    have := w.isLt
    have h : ∀ i, (w &&& 0xF000#16).toNat.testBit i = (w.toNat / 4096 * 4096).testBit i := by
      intro i
      have e2 : w.toNat / 4096 * 4096 = w.toNat / 2 ^ 12 * 2 ^ 12 := rfl
      have e3 : (0xF000#16).toNat = 15 * 2 ^ 12 := rfl
      rw [BitVec.toNat_and, Nat.testBit_and, e2, e3, Nat.testBit_mul_two_pow, Nat.testBit_mul_two_pow, Nat.testBit_div_two_pow]
      by_cases h1 : 12 ≤ i
      · rw [show i - 12 + 12 = i by omega]
        by_cases h2 : i < 16
        · interval_cases i <;> simp [Nat.testBit]
        · rw [Nat.testBit_lt_two_pow (show w.toNat < 2 ^ i from
            lt_of_lt_of_le w.isLt (Nat.pow_le_pow_right (by omega) (by omega)))]
          simp
      · simp [h1]
    exact Nat.eq_of_testBit_eq h
  rw [Bool.eq_iff_iff, beq_iff_eq, decide_eq_true_eq, ← BitVec.toNat_inj, e, toNat_nibble0]
  omega

/-- The mask 0xF00F keeps `n0` and `n3`. -/
theorem and_mask_ends (w v : Word) (hv : v.toNat / 16 % 256 = 0) :
    ((w &&& 0xF00F#16) == v) =
      (decide ((nibble0 w).toNat = v.toNat / 4096) && decide ((nibble3 w).toNat = v.toNat % 16)) := by
  have h15 : (w &&& 0x000F#16).toNat = w.toNat % 16 := by
    rw [BitVec.toNat_and]
    exact Nat.and_two_pow_sub_one_eq_mod w.toNat 4
  have hF : (0xF00F#16 : Word) = 0xF000#16 ||| 0x000F#16 := by decide
  have hor : w &&& 0xF00F#16 = (w &&& 0xF000#16) ||| (w &&& 0x000F#16) := by
    rw [hF]
    exact BitVec.and_or_distrib_left
  have hhi : w &&& 0xF000#16 = BitVec.ofNat 16 (w.toNat / 4096 * 4096) := by
    have hlt := w.isLt
    have := and_mask_high w (BitVec.ofNat 16 (w.toNat / 4096 * 4096)) (by rw [BitVec.toNat_ofNat]; omega)
    rw [toNat_nibble0, BitVec.toNat_ofNat] at this
    have hd : decide (w.toNat / 4096 = w.toNat / 4096 * 4096 % 2 ^ 16 / 4096) = true := decide_eq_true (by omega)
    rw [hd, beq_iff_eq] at this
    exact this
  have e : (w &&& 0xF00F#16).toNat = w.toNat / 4096 * 4096 + w.toNat % 16 := by
    have hlt := w.isLt
    rw [hor, BitVec.toNat_or, h15, hhi, BitVec.toNat_ofNat, Nat.mod_eq_of_lt (by omega)]
    have : w.toNat / 4096 * 4096 = (w.toNat / 4096) <<< 12 := by rw [Nat.shiftLeft_eq]
    rw [this, ← Nat.shiftLeft_add_eq_or_of_lt (by omega)]
  rw [Bool.eq_iff_iff, beq_iff_eq, Bool.and_eq_true, decide_eq_true_eq, decide_eq_true_eq, ← BitVec.toNat_inj, e,
    toNat_nibble0, toNat_nibble3]
  omega

end Sys2Proof
end

