-- ==== Sys2Proof/Laws/Display.lean ====
section
/-! SUPPORT. The laws of the display: a cell after a cell is written, the blank display, and what one sprite bit does. -/

namespace Sys2Proof.Machine

/-- Reading a cell after writing one. -/
theorem Display.cell_setCell (d : Display) (r q : Fin 32) (c e : Fin 64) (b : Bool) :
    Display.cell (Display.setCell d r c b) q e = if q = r ∧ e = c then b else Display.cell d q e := by
  simp only [Display.cell, Display.setCell, Vector.getElem_set, Fin.ext_iff]
  by_cases hr : r.val = q.val
  · by_cases hc : c.val = e.val
    · simp [hr, hc]
    · simp [hr, hc, Ne.symm hc]
  · simp [hr, Ne.symm hr]

/-- Every cell of the blank display is off. -/
@[simp] theorem Display.cell_blank (r : Fin 32) (c : Fin 64) : Display.cell Display.blank r c = false := by
  simp [Display.cell, Display.blank]

/-- Two displays with the same cells are equal. -/
theorem Display.ext_cells {d e : Display} (h : ∀ r c, Display.cell d r c = Display.cell e r c) : d = e := by
  apply Vector.ext
  intro i hi
  apply Vector.ext
  intro j hj
  exact h ⟨i, hi⟩ ⟨j, hj⟩

theorem rowOf_val (v : Nat) : (rowOf v).val = v % 32 := rfl

theorem colOf_val (v : Nat) : (colOf v).val = v % 64 := rfl

/-- Everything `drawBit` does: its cell is exclusive-ored, every other one is as before, and a collision is recorded when the
bit is 1 and the cell was on. -/
theorem drawBit_spec (r : Fin 32) (c : Fin 64) (bit : Bool) (k : Canvas) (q : Fin 32) (e : Fin 64) :
    Display.cell (drawBit r c bit k).disp q e =
      (if q = r ∧ e = c then (Display.cell k.disp r c ^^ bit) else Display.cell k.disp q e) ∧
    (drawBit r c bit k).collision = (k.collision || (bit && Display.cell k.disp r c)) :=
  ⟨Display.cell_setCell k.disp r q c e _, rfl⟩

end Sys2Proof.Machine
end

