-- ==== Sys2Proof/Laws/Draw.lean ====
section
/-! SUPPORT. What one sprite row does, and the two ways `draw-sprite` goes (43_index_draw.md R102, R103). -/

namespace Sys2Proof.Machine

/-- `draw-sprite` with its bytes in memory (R102). -/
theorem execDrawSprite_of_inside {s : State} {n : RowCount} (x y : RegIdx) (h : spriteOutside s n = false) :
    execDrawSprite x y n s =
      .next (State.setReg { s with disp := (drawnCanvas x y n s).disp } 0xF (flagByte (drawnCanvas x y n s).collision)) :=
  if_neg (by rw [h]; exact Bool.false_ne_true)

/-- `draw-sprite` with a byte outside memory (R37). -/
theorem execDrawSprite_of_outside {s : State} {n : RowCount} (x y : RegIdx) (h : spriteOutside s n = true) :
    execDrawSprite x y n s = .next (raiseFrom .addressError (.drawSprite x y n) s) :=
  if_pos h

theorem spriteOutside_iff (s : State) (n : RowCount) :
    spriteOutside s n = true ↔ 0 < n.val ∧ s.index.toNat + n.val - 1 > 0x0FFF := by
  simp [spriteOutside]

/-- The first `m` bits of a sprite row. -/
def drawRowBits (vx : Nat) (r : Fin 32) (row : Byte) (k : Canvas) (m : Nat) : Canvas :=
  (List.range m).foldl (fun k j => drawBit r (colOf (vx + j)) (spriteBit row j) k) k

theorem drawRowBits_succ (vx : Nat) (r : Fin 32) (row : Byte) (k : Canvas) (m : Nat) :
    drawRowBits vx r row k (m + 1) = drawBit r (colOf (vx + m)) (spriteBit row m) (drawRowBits vx r row k m) := by
  simp [drawRowBits, List.range_succ]

theorem drawRow_eq_bits (vx : Nat) (r : Fin 32) (row : Byte) (k : Canvas) :
    drawRow vx r row k = drawRowBits vx r row k 8 := rfl

/-- Eight neighbouring columns are different. -/
theorem colOf_add_ne {vx i j : Nat} (h : i ≠ j) (hi : i < 8) (hj : j < 8) : colOf (vx + i) ≠ colOf (vx + j) := by
  intro e
  have := congrArg Fin.val e
  rw [colOf_val, colOf_val] at this
  omega

/-- Fifteen neighbouring rows are different. -/
theorem rowOf_add_ne {vy i j : Nat} (h : i ≠ j) (hi : i < 15) (hj : j < 15) : rowOf (vy + i) ≠ rowOf (vy + j) := by
  intro e
  have := congrArg Fin.val e
  rw [rowOf_val, rowOf_val] at this
  omega

/-- The first `m` bits toggle exactly the cells a 1 bit falls on, and record exactly the toggled cells that were on. -/
theorem drawRowBits_spec (vx : Nat) (r : Fin 32) (row : Byte) (k : Canvas) {m : Nat} (hm : m ≤ 8) :
    (∀ e, Display.cell (drawRowBits vx r row k m).disp r e =
      (Display.cell k.disp r e ^^ (List.range m).any (fun j => decide (e = colOf (vx + j)) && spriteBit row j))) ∧
    (∀ q e, q ≠ r → Display.cell (drawRowBits vx r row k m).disp q e = Display.cell k.disp q e) ∧
    (drawRowBits vx r row k m).collision =
      (k.collision || (List.range m).any (fun j => spriteBit row j && Display.cell k.disp r (colOf (vx + j)))) := by
  induction m with
  | zero => simp [drawRowBits]
  | succ m ih =>
    obtain ⟨h1, h2, h3⟩ := ih (by omega)
    have hfresh : Display.cell (drawRowBits vx r row k m).disp r (colOf (vx + m)) = Display.cell k.disp r (colOf (vx + m)) := by
      rw [h1, List.any_eq_false.2, Bool.xor_false]
      intro j hj
      have hj' := List.mem_range.1 hj
      simp [colOf_add_ne (vx := vx) (show m ≠ j by omega) (by omega) (by omega)]
    simp only [drawRowBits_succ, List.range_succ, List.any_append, List.any_cons, List.any_nil, Bool.or_false]
    refine ⟨fun e => ?_, fun q e hq => ?_, ?_⟩
    · rw [(drawBit_spec _ _ _ _ r e).1, hfresh]
      by_cases he : e = colOf (vx + m)
      · subst he
        have : (List.range m).any (fun j => decide (colOf (vx + m) = colOf (vx + j)) && spriteBit row j) = false := by
          rw [List.any_eq_false]
          intro j hj
          have hj' := List.mem_range.1 hj
          simp [colOf_add_ne (vx := vx) (show m ≠ j by omega) (by omega) (by omega)]
        simp [this]
      · simp [he, h1]
    · rw [(drawBit_spec _ _ _ _ q e).1, if_neg (fun h => hq h.1), h2 q e hq]
    · rw [(drawBit_spec _ _ _ _ r (colOf (vx + m))).2, hfresh, h3, Bool.or_assoc]

/-- Everything one sprite row does: in its own row it toggles exactly the cells a 1 bit falls on, it leaves every other row alone,
and it records a collision exactly when a 1 bit falls on an on cell. -/
theorem drawRow_spec (vx : Nat) (r : Fin 32) (row : Byte) (k : Canvas) :
    (∀ e, Display.cell (drawRow vx r row k).disp r e =
      (Display.cell k.disp r e ^^ (List.range 8).any (fun j => decide (e = colOf (vx + j)) && spriteBit row j))) ∧
    (∀ q e, q ≠ r → Display.cell (drawRow vx r row k).disp q e = Display.cell k.disp q e) ∧
    (drawRow vx r row k).collision =
      (k.collision || (List.range 8).any (fun j => spriteBit row j && Display.cell k.disp r (colOf (vx + j)))) :=
  drawRow_eq_bits vx r row k ▸ drawRowBits_spec vx r row k le_rfl

theorem drawRows_succ (s : State) (vx vy m : Nat) (k : Canvas) :
    drawRows s vx vy (m + 1) k =
      drawRow vx (rowOf (vy + m)) (s.readByte (spriteAddr s m)) (drawRows s vx vy m k) := by
  simp [drawRows, List.range_succ]

end Sys2Proof.Machine
end

