-- ==== Sys2Proof/Laws/Memory.lean ====
section
/-! SUPPORT. The laws of memory: a read after a write, and that every operation keeps the canonical form. -/

namespace Sys2Proof.Machine

theorem Memory.wfFrom_cons_iff (lo k : Nat) (v : Byte) (rest : List Host.Cell) :
    Memory.wfFrom lo ((k, v) :: rest) = true ↔
      lo ≤ k ∧ k < Config.memSize ∧ v ≠ Memory.unlisted k ∧ Memory.wfFrom (k + 1) rest = true := by
  simp [Memory.wfFrom, and_assoc]

/-- The bound of a canonical memory may be lowered. -/
theorem Memory.wfFrom_mono {lo lo' : Nat} (h : lo' ≤ lo) {m : List Host.Cell} (hm : Memory.wfFrom lo m = true) :
    Memory.wfFrom lo' m = true := by
  cases m with
  | nil => rfl
  | cons c rest =>
    obtain ⟨k, v⟩ := c
    rw [Memory.wfFrom_cons_iff] at hm ⊢
    exact ⟨h.trans hm.1, hm.2⟩

/-- Below the bound a canonical memory lists nothing. -/
theorem Memory.read_below {lo a : Nat} (h : a < lo) {m : List Host.Cell} (hm : Memory.wfFrom lo m = true) :
    Memory.read m a = Memory.unlisted a := by
  induction m generalizing lo with
  | nil => rfl
  | cons c rest ih =>
    obtain ⟨k, v⟩ := c
    rw [Memory.wfFrom_cons_iff] at hm
    have hk : a ≠ k := by omega
    simp only [Memory.read, hk, if_false]
    exact ih (by omega) hm.2.2.2

theorem Memory.wfFrom_cons_write {lo a : Nat} {b : Byte} {m : List Host.Cell} (hlo : lo ≤ a) (ha : a < Config.memSize)
    (hm : Memory.wfFrom (a + 1) m = true) : Memory.wfFrom lo (Memory.cons a b m) = true := by
  unfold Memory.cons
  split
  · exact Memory.wfFrom_mono (by omega) hm
  · next hb => exact (Memory.wfFrom_cons_iff ..).2 ⟨hlo, ha, hb, hm⟩

theorem Memory.wfFrom_write {lo a : Nat} (b : Byte) {m : List Host.Cell} (hlo : lo ≤ a) (ha : a < Config.memSize)
    (hm : Memory.wfFrom lo m = true) : Memory.wfFrom lo (Memory.write m a b) = true := by
  induction m generalizing lo with
  | nil => exact Memory.wfFrom_cons_write hlo ha rfl
  | cons c rest ih =>
    obtain ⟨k, v⟩ := c
    have hm' := (Memory.wfFrom_cons_iff ..).1 hm
    simp only [Memory.write]
    split
    · next h => exact Memory.wfFrom_cons_write hlo ha ((Memory.wfFrom_cons_iff ..).2 ⟨by omega, hm'.2⟩)
    · split
      · next h => subst h; exact Memory.wfFrom_cons_write hlo ha hm'.2.2.2
      · exact (Memory.wfFrom_cons_iff ..).2 ⟨hm'.1, hm'.2.1, hm'.2.2.1, ih (by omega) hm'.2.2.2⟩

/-- A write inside memory keeps the canonical form. -/
theorem Memory.wf_write {a : Nat} (b : Byte) {m : List Host.Cell} (ha : a < Config.memSize) (hm : Memory.wf m = true) :
    Memory.wf (Memory.write m a b) = true :=
  Memory.wfFrom_write b (Nat.zero_le a) ha hm

/-- Writing bytes inside memory keeps the canonical form. -/
theorem Memory.wf_writeBytes {a : Nat} (bs : List Byte) {m : List Host.Cell} (ha : a + bs.length ≤ Config.memSize)
    (hm : Memory.wf m = true) : Memory.wf (Memory.writeBytes m a bs) = true := by
  induction bs generalizing a m with
  | nil => exact hm
  | cons b rest ih =>
    simp only [List.length_cons] at ha
    exact ih (by omega) (Memory.wf_write b (by omega) hm)

theorem Memory.read_cons (a x : Nat) (b : Byte) {m : List Host.Cell} (hm : Memory.read m a = Memory.unlisted a) :
    Memory.read (Memory.cons a b m) x = if x = a then b else Memory.read m x := by
  unfold Memory.cons
  split
  · next hb =>
    split
    · next hx => rw [hx, hm, hb]
    · rfl
  · rfl

/-- Reading after writing one byte: the byte at its address, every other address as before. -/
theorem Memory.read_write {a : Nat} (x : Nat) (b : Byte) {lo : Nat} {m : List Host.Cell} (hm : Memory.wfFrom lo m = true) :
    Memory.read (Memory.write m a b) x = if x = a then b else Memory.read m x := by
  induction m generalizing lo with
  | nil => exact Memory.read_cons a x b rfl
  | cons c rest ih =>
    obtain ⟨k, v⟩ := c
    have hm' := (Memory.wfFrom_cons_iff ..).1 hm
    simp only [Memory.write]
    split
    · next h => exact Memory.read_cons a x b (Memory.read_below h ((Memory.wfFrom_cons_iff ..).2 ⟨le_rfl, hm'.2⟩))
    · split
      · next h =>
        subst h
        rw [Memory.read_cons a x b (Memory.read_below (by omega) hm'.2.2.2)]
        simp only [Memory.read]
        split <;> rfl
      · next h1 h2 =>
        simp only [Memory.read]
        split
        · next hx => rw [if_neg (by omega)]
        · exact ih hm'.2.2.2

/-- Reading after writing bytes: byte `x - a` inside the bytes written, every other address as before. -/
theorem Memory.read_writeBytes (a x : Nat) (bs : List Byte) {m : List Host.Cell} (ha : a + bs.length ≤ Config.memSize)
    (hm : Memory.wf m = true) :
    Memory.read (Memory.writeBytes m a bs) x = if a ≤ x then (bs[x - a]?).getD (Memory.read m x) else Memory.read m x := by
  induction bs generalizing a m with
  | nil => simp [Memory.writeBytes]
  | cons b rest ih =>
    simp only [List.length_cons] at ha
    rw [Memory.writeBytes, ih (a + 1) (by omega) (Memory.wf_write b (by omega) hm), Memory.read_write x b hm]
    by_cases hx : x = a
    · subst hx; simp
    · by_cases hle : a ≤ x
      · have : x - a = (x - (a + 1)) + 1 := by omega
        rw [if_pos (by omega), if_pos hle, if_neg hx, this, List.getElem?_cons_succ]
      · rw [if_neg (by omega), if_neg hle, if_neg hx]

end Sys2Proof.Machine
end

