-- ==== Sys2Proof/Laws/State.lean ====
section
/-! SUPPORT. What every named update of the state does to every field: one lemma per field per update, so that no proof unfolds
a record update, and the register file's read-after-write laws. -/

namespace Sys2Proof.Machine

/-! ### `setReg` -/

@[simp] theorem State.setReg_index (s : State) (r : RegIdx) (b : Byte) : (s.setReg r b).index = s.index := rfl
@[simp] theorem State.setReg_pc (s : State) (r : RegIdx) (b : Byte) : (s.setReg r b).pc = s.pc := rfl
@[simp] theorem State.setReg_stack (s : State) (r : RegIdx) (b : Byte) : (s.setReg r b).stack = s.stack := rfl
@[simp] theorem State.setReg_sp (s : State) (r : RegIdx) (b : Byte) : (s.setReg r b).sp = s.sp := rfl
@[simp] theorem State.setReg_dt (s : State) (r : RegIdx) (b : Byte) : (s.setReg r b).dt = s.dt := rfl
@[simp] theorem State.setReg_st (s : State) (r : RegIdx) (b : Byte) : (s.setReg r b).st = s.st := rfl
@[simp] theorem State.setReg_disp (s : State) (r : RegIdx) (b : Byte) : (s.setReg r b).disp = s.disp := rfl
@[simp] theorem State.setReg_mem (s : State) (r : RegIdx) (b : Byte) : (s.setReg r b).mem = s.mem := rfl
@[simp] theorem State.setReg_fault (s : State) (r : RegIdx) (b : Byte) : (s.setReg r b).fault = s.fault := rfl
@[simp] theorem State.setReg_draws (s : State) (r : RegIdx) (b : Byte) : (s.setReg r b).draws = s.draws := rfl

/-- A register written reads back as written. -/
@[simp] theorem State.reg_setReg_same (s : State) (r : RegIdx) (b : Byte) : (s.setReg r b).reg r = b := by
  simp [State.reg, State.setReg]

/-- Writing a register leaves every other one alone. -/
theorem State.reg_setReg_of_ne (s : State) {q r : RegIdx} (b : Byte) (h : q ≠ r) : (s.setReg r b).reg q = s.reg q := by
  have : r.val ≠ q.val := fun e => h (Fin.ext e.symm)
  simp [State.reg, State.setReg, this]

/-- Reading a register after writing one, both cases at once. -/
theorem State.reg_setReg (s : State) (q r : RegIdx) (b : Byte) :
    (s.setReg r b).reg q = if q = r then b else s.reg q := by
  split
  · next h => rw [h, State.reg_setReg_same]
  · next h => exact State.reg_setReg_of_ne s b h

/-! ### `setResultFlag` -/

@[simp] theorem State.setResultFlag_index (s : State) (x : RegIdx) (v : Byte) (f : Bool) : (s.setResultFlag x v f).index = s.index := rfl
@[simp] theorem State.setResultFlag_pc (s : State) (x : RegIdx) (v : Byte) (f : Bool) : (s.setResultFlag x v f).pc = s.pc := rfl
@[simp] theorem State.setResultFlag_stack (s : State) (x : RegIdx) (v : Byte) (f : Bool) : (s.setResultFlag x v f).stack = s.stack := rfl
@[simp] theorem State.setResultFlag_sp (s : State) (x : RegIdx) (v : Byte) (f : Bool) : (s.setResultFlag x v f).sp = s.sp := rfl
@[simp] theorem State.setResultFlag_dt (s : State) (x : RegIdx) (v : Byte) (f : Bool) : (s.setResultFlag x v f).dt = s.dt := rfl
@[simp] theorem State.setResultFlag_st (s : State) (x : RegIdx) (v : Byte) (f : Bool) : (s.setResultFlag x v f).st = s.st := rfl
@[simp] theorem State.setResultFlag_disp (s : State) (x : RegIdx) (v : Byte) (f : Bool) : (s.setResultFlag x v f).disp = s.disp := rfl
@[simp] theorem State.setResultFlag_mem (s : State) (x : RegIdx) (v : Byte) (f : Bool) : (s.setResultFlag x v f).mem = s.mem := rfl
@[simp] theorem State.setResultFlag_fault (s : State) (x : RegIdx) (v : Byte) (f : Bool) : (s.setResultFlag x v f).fault = s.fault := rfl
@[simp] theorem State.setResultFlag_draws (s : State) (x : RegIdx) (v : Byte) (f : Bool) : (s.setResultFlag x v f).draws = s.draws := rfl

/-- Everything `setResultFlag` does to the registers: the flag register ends as the flag, then the result, the rest as before. -/
theorem State.reg_setResultFlag (s : State) (q x : RegIdx) (v : Byte) (f : Bool) :
    (s.setResultFlag x v f).reg q = if q = 0xF then flagByte f else if q = x then v else s.reg q := by
  simp only [State.setResultFlag, State.reg_setReg, Config.flagReg]

/-! ### `advance`, `tick`, `drawDone`, `raise`, `writeBytes` -/

@[simp] theorem advance_reg (s : State) (r : RegIdx) : (advance s).reg r = s.reg r := rfl
@[simp] theorem advance_regs (s : State) : (advance s).regs = s.regs := rfl
@[simp] theorem advance_index (s : State) : (advance s).index = s.index := rfl
@[simp] theorem advance_pc (s : State) : (advance s).pc = s.pc + 2#16 := rfl
@[simp] theorem advance_stack (s : State) : (advance s).stack = s.stack := rfl
@[simp] theorem advance_sp (s : State) : (advance s).sp = s.sp := rfl
@[simp] theorem advance_dt (s : State) : (advance s).dt = s.dt := rfl
@[simp] theorem advance_st (s : State) : (advance s).st = s.st := rfl
@[simp] theorem advance_disp (s : State) : (advance s).disp = s.disp := rfl
@[simp] theorem advance_mem (s : State) : (advance s).mem = s.mem := rfl
@[simp] theorem advance_fault (s : State) : (advance s).fault = s.fault := rfl
@[simp] theorem advance_draws (s : State) : (advance s).draws = s.draws := rfl

@[simp] theorem tick_reg (s : State) (r : RegIdx) : (tick s).reg r = s.reg r := rfl
@[simp] theorem tick_regs (s : State) : (tick s).regs = s.regs := rfl
@[simp] theorem tick_index (s : State) : (tick s).index = s.index := rfl
@[simp] theorem tick_pc (s : State) : (tick s).pc = s.pc := rfl
@[simp] theorem tick_stack (s : State) : (tick s).stack = s.stack := rfl
@[simp] theorem tick_sp (s : State) : (tick s).sp = s.sp := rfl
@[simp] theorem tick_dt (s : State) : (tick s).dt = tickTimer s.dt := rfl
@[simp] theorem tick_st (s : State) : (tick s).st = tickTimer s.st := rfl
@[simp] theorem tick_disp (s : State) : (tick s).disp = s.disp := rfl
@[simp] theorem tick_mem (s : State) : (tick s).mem = s.mem := rfl
@[simp] theorem tick_fault (s : State) : (tick s).fault = s.fault := rfl
@[simp] theorem tick_draws (s : State) : (tick s).draws = s.draws := rfl

@[simp] theorem State.drawDone_reg (s : State) (r : RegIdx) : s.drawDone.reg r = s.reg r := rfl
@[simp] theorem State.drawDone_regs (s : State) : s.drawDone.regs = s.regs := rfl
@[simp] theorem State.drawDone_index (s : State) : s.drawDone.index = s.index := rfl
@[simp] theorem State.drawDone_pc (s : State) : s.drawDone.pc = s.pc := rfl
@[simp] theorem State.drawDone_stack (s : State) : s.drawDone.stack = s.stack := rfl
@[simp] theorem State.drawDone_sp (s : State) : s.drawDone.sp = s.sp := rfl
@[simp] theorem State.drawDone_dt (s : State) : s.drawDone.dt = s.dt := rfl
@[simp] theorem State.drawDone_st (s : State) : s.drawDone.st = s.st := rfl
@[simp] theorem State.drawDone_disp (s : State) : s.drawDone.disp = s.disp := rfl
@[simp] theorem State.drawDone_mem (s : State) : s.drawDone.mem = s.mem := rfl
@[simp] theorem State.drawDone_fault (s : State) : s.drawDone.fault = s.fault := rfl
@[simp] theorem State.drawDone_draws (s : State) : s.drawDone.draws = s.draws + 1 := rfl

@[simp] theorem raise_reg (c : FaultCode) (a w : Word) (s : State) (r : RegIdx) : (raise c a w s).reg r = s.reg r := rfl
@[simp] theorem raise_regs (c : FaultCode) (a w : Word) (s : State) : (raise c a w s).regs = s.regs := rfl
@[simp] theorem raise_index (c : FaultCode) (a w : Word) (s : State) : (raise c a w s).index = s.index := rfl
@[simp] theorem raise_pc (c : FaultCode) (a w : Word) (s : State) : (raise c a w s).pc = s.pc := rfl
@[simp] theorem raise_stack (c : FaultCode) (a w : Word) (s : State) : (raise c a w s).stack = s.stack := rfl
@[simp] theorem raise_sp (c : FaultCode) (a w : Word) (s : State) : (raise c a w s).sp = s.sp := rfl
@[simp] theorem raise_dt (c : FaultCode) (a w : Word) (s : State) : (raise c a w s).dt = s.dt := rfl
@[simp] theorem raise_st (c : FaultCode) (a w : Word) (s : State) : (raise c a w s).st = s.st := rfl
@[simp] theorem raise_disp (c : FaultCode) (a w : Word) (s : State) : (raise c a w s).disp = s.disp := rfl
@[simp] theorem raise_mem (c : FaultCode) (a w : Word) (s : State) : (raise c a w s).mem = s.mem := rfl
@[simp] theorem raise_draws (c : FaultCode) (a w : Word) (s : State) : (raise c a w s).draws = s.draws := rfl
@[simp] theorem raise_fault (c : FaultCode) (a w : Word) (s : State) : (raise c a w s).fault = some ⟨c, a, w⟩ := rfl

@[simp] theorem State.writeBytes_reg (s : State) (a : Nat) (bs : List Byte) (r : RegIdx) : (s.writeBytes a bs).reg r = s.reg r := rfl
@[simp] theorem State.writeBytes_regs (s : State) (a : Nat) (bs : List Byte) : (s.writeBytes a bs).regs = s.regs := rfl
@[simp] theorem State.writeBytes_index (s : State) (a : Nat) (bs : List Byte) : (s.writeBytes a bs).index = s.index := rfl
@[simp] theorem State.writeBytes_pc (s : State) (a : Nat) (bs : List Byte) : (s.writeBytes a bs).pc = s.pc := rfl
@[simp] theorem State.writeBytes_stack (s : State) (a : Nat) (bs : List Byte) : (s.writeBytes a bs).stack = s.stack := rfl
@[simp] theorem State.writeBytes_sp (s : State) (a : Nat) (bs : List Byte) : (s.writeBytes a bs).sp = s.sp := rfl
@[simp] theorem State.writeBytes_dt (s : State) (a : Nat) (bs : List Byte) : (s.writeBytes a bs).dt = s.dt := rfl
@[simp] theorem State.writeBytes_st (s : State) (a : Nat) (bs : List Byte) : (s.writeBytes a bs).st = s.st := rfl
@[simp] theorem State.writeBytes_disp (s : State) (a : Nat) (bs : List Byte) : (s.writeBytes a bs).disp = s.disp := rfl
@[simp] theorem State.writeBytes_fault (s : State) (a : Nat) (bs : List Byte) : (s.writeBytes a bs).fault = s.fault := rfl
@[simp] theorem State.writeBytes_draws (s : State) (a : Nat) (bs : List Byte) : (s.writeBytes a bs).draws = s.draws := rfl
@[simp] theorem State.writeBytes_mem (s : State) (a : Nat) (bs : List Byte) :
    (s.writeBytes a bs).mem = Memory.writeBytes s.mem a bs := rfl

end Sys2Proof.Machine
end

