-- ==== Sys2Proof/Laws/Ops.lean ====
section
/-! SUPPORT. One lemma per shared operation that says everything it can do, for the proofs to cite. -/

namespace Sys2Proof.Machine

/-- The fetch condition as numbers (R36). -/
theorem fetchOk_iff (pc : Word) : fetchOk pc = true ↔ pc.toNat % 2 = 0 ∧ 0x200 ≤ pc.toNat ∧ pc.toNat ≤ 0x0FFE := by
  simp [fetchOk, and_assoc]

/-- The advance past an address that can be fetched from does not wrap. -/
theorem toNat_advance {s : State} (h : fetchOk s.pc = true) : (advance s).pc.toNat = s.pc.toNat + 2 := by
  have := (fetchOk_iff s.pc).1 h
  have e : (2#16).toNat = 2 := rfl
  simp only [advance_pc, BitVec.toNat_add, e]
  omega

/-- After the advance, `ia` is the address the instruction was fetched from. -/
@[simp] theorem instrAddr_advance (s : State) : instrAddr (advance s) = s.pc := by
  simp [instrAddr]

/-- What a fault of the instruction's own check leaves, seen from the state before the cycle (R111). -/
theorem raiseFrom_advance (c : FaultCode) (i : Instr) (s : State) :
    raiseFrom c i (advance s) = { s with pc := s.pc + 2#16, fault := some { code := c, ia := s.pc, w := encode i } } := by
  unfold raiseFrom
  rw [instrAddr_advance]
  rfl

/-- What an invalid word leaves, seen from the state before the cycle (R112). -/
theorem raiseInvalid_advance (w : Word) (s : State) :
    raiseInvalid w (advance s) =
      { s with pc := s.pc + 2#16, fault := some { code := .invalidOpcode, ia := s.pc, w := w } } := by
  unfold raiseInvalid
  rw [instrAddr_advance]
  rfl

/-- What a forbidden fetch leaves (R115). -/
theorem raiseFetch_eq (s : State) :
    raiseFetch s = { s with fault := some { code := .addressError, ia := s.pc, w := 0x0000#16 } } := rfl

/-- The end of a cycle answers a next state exactly when the instruction did: that state, ticked unless a fault is latched. -/
theorem endCycle_next {o : Host.Outcome State Fault Refusal} {t : State} (h : endCycle o = .next t) :
    ∃ u, o = .next u ∧ ((u.fault = none ∧ t = tick u) ∨ (u.fault ≠ none ∧ t = u)) := by
  cases o with
  | next u =>
    simp only [endCycle, Host.Outcome.next.injEq] at h
    refine ⟨u, rfl, ?_⟩
    cases hf : u.fault with
    | none => exact .inl ⟨rfl, by simpa [hf] using h.symm⟩
    | some r => exact .inr ⟨by simp, by simpa [hf] using h.symm⟩
  | fault r => simp [endCycle] at h
  | refused r => simp [endCycle] at h

/-- Everything one step can do when it answers a next state. -/
theorem step_next {s t : State} (h : step s = .next t) :
    s.fault = none ∧
    ((fetchOk s.pc = false ∧ t = raiseFetch s) ∨
     (fetchOk s.pc = true ∧ (∃ e, decodeWord (fetchWord s) = .error e) ∧ t = raiseInvalid (fetchWord s) (advance s)) ∨
     (fetchOk s.pc = true ∧ ∃ i, decodeWord (fetchWord s) = .ok i ∧ ∃ u, exec i (advance s) = .next u ∧
       ((u.fault = none ∧ t = tick u) ∨ (u.fault ≠ none ∧ t = u)))) := by
  unfold step at h
  split at h
  · simp at h
  · next hf =>
    refine ⟨hf, ?_⟩
    split at h
    · next hok =>
      split at h
      · next i hi =>
        obtain ⟨u, hu, ht⟩ := endCycle_next h
        exact .inr (.inr ⟨hok, i, hi, u, hu, ht⟩)
      · next e he => exact .inr (.inl ⟨hok, ⟨e, he⟩, by simpa using h.symm⟩)
    · next hok => exact .inl ⟨by simpa using hok, by simpa using h.symm⟩

/-- A run of no steps is where it starts. -/
theorem run_zero (s : State) : Host.Core.run Sys2Proof.core 0 s = .next s := rfl

/-- A longer run whose first step answers a next state goes on from there. -/
theorem run_succ_of_next {s u : State} (k : Nat) (h : step s = .next u) :
    Host.Core.run Sys2Proof.core (k + 1) s = Host.Core.run Sys2Proof.core k u := by
  have e := Host.Core.run.eq_2 Sys2Proof.core s k
  have h' : Sys2Proof.core.step s = .next u := h
  rw [h'] at e
  exact e

/-- A longer run that answers a next state took a first step that did. -/
theorem run_succ_next {s t : State} {k : Nat} (h : Host.Core.run Sys2Proof.core (k + 1) s = .next t) :
    ∃ u, step s = .next u ∧ Host.Core.run Sys2Proof.core k u = .next t := by
  have e := (Host.Core.run.eq_2 Sys2Proof.core s k).symm.trans h
  have hs : step s = Sys2Proof.core.step s := rfl
  cases hd : step s with
  | next u => exact ⟨u, rfl, (run_succ_of_next k hd).symm.trans h⟩
  | fault r =>
    rw [← hs, hd] at e
    cases e
  | refused r =>
    rw [← hs, hd] at e
    cases e

/-- Everything a skip does: `pc` moves on by 2 when the condition holds. -/
theorem skipWhen_eq (b : Bool) (s : State) : skipWhen b s = { s with pc := if b then s.pc + 2#16 else s.pc } := by
  cases b <;> rfl

theorem val_spUp {sp : Fin 17} (h : sp.val < 16) : (spUp sp).val = sp.val + 1 := by
  show (sp.val + 1) % 17 = _
  omega

theorem val_spDown (sp : Fin 17) : (spDown sp).val = sp.val - 1 := by
  show (sp.val - 1) % 17 = _
  omega

/-- `call` with room on the stack (R73). -/
theorem execCall_of_room {s : State} (nnn : Imm12) (h : s.sp.val < 16) :
    execCall nnn s =
      .next { s with stack := s.stack.set s.sp.val s.pc h, sp := spUp s.sp, pc := addrOf nnn } :=
  dif_pos (show s.sp.val < Config.stackDepth from h)

/-- `call` with a full stack (R73). -/
theorem execCall_of_full {s : State} (nnn : Imm12) (h : ¬ s.sp.val < 16) :
    execCall nnn s = .next (raiseFrom .stackOverflow (.call nnn) s) :=
  dif_neg (show ¬ s.sp.val < Config.stackDepth from h)

/-- `return` with an entry in use (R71). -/
theorem execRet_of_entry {s : State} (h : s.sp ≠ 0) (hk : s.sp.val - 1 < 16) :
    execRet s = .next { s with sp := spDown s.sp, pc := s.stack[s.sp.val - 1] } :=
  dif_neg h

/-- `return` with an empty stack (R71). -/
theorem execRet_of_empty {s : State} (h : s.sp = 0) : execRet s = .next (raiseFrom .stackUnderflow .ret s) :=
  dif_pos h

/-- Everything `load` does. -/
theorem load_cases (image : List Byte) (s : State) :
    (image.length ≤ 3584 ∧ load image s = .ok (s.writeBytes 0x200 image)) ∨
    (3584 < image.length ∧ load image s = .error .capacityError) := by
  unfold load imageWellFormed
  by_cases h : image.length ≤ Config.maxImage
  · exact .inl ⟨h, by simp [h]⟩
  · exact .inr ⟨by simpa using h, by simp [h]⟩

/-- `load` keeps memory's canonical form. -/
theorem load_keeps_wf {image : List Byte} {s t : State} (hs : Memory.wf s.mem = true) (h : load image s = .ok t) :
    Memory.wf t.mem = true := by
  rcases load_cases image s with ⟨hl, e⟩ | ⟨-, e⟩
  · rw [e] at h
    cases h
    exact Memory.wf_writeBytes image (by show 0x200 + _ ≤ 4096; omega) hs
  · rw [e] at h
    cases h

/-- Placing a word at `pc` keeps memory's canonical form. -/
theorem placeWord_keeps_wf {s : State} (w : Word) (hs : Memory.wf s.mem = true) : Memory.wf (placeWord s w).mem = true := by
  unfold placeWord
  split
  · next h =>
    have := (fetchOk_iff s.pc).1 h
    exact Memory.wf_writeBytes _ (by show s.pc.toNat + 2 ≤ 4096; omega) hs
  · exact hs

/-- The reset memory is canonical. -/
theorem reset_mem_wf : Memory.wf State.reset.mem = true := rfl

end Sys2Proof.Machine
end

