-- ==== Sys2Proof/Laws/PerInstr.lean ====
section
/-! SUPPORT. The statement made of every instruction as syntax: its word is selected by the row of the opcode map that bears its
name (30_encoding.md R55). One lemma per constructor. -/

namespace Sys2Proof.Laws.TableRow

/-- The row of the instruction's mnemonic selects the instruction's word. -/
def Statement (i : Instr) : Prop := ∃ row ∈ opRows, row.mnemonic = i.mnemonic ∧ row.selects (encode i) = true

/-- A row with the mask 0xF000 selects a word by its first nibble. -/
theorem selects_high {w v : Word} (h : (nibble0 w).toNat = v.toNat / 4096) (hv : v.toNat % 4096 = 0) (m : String) :
    OpRow.selects { mnemonic := m, mask := 0xF000#16, value := v } w = true := by
  simp only [OpRow.selects, and_mask_high w v hv, h, decide_true]

/-- A row with the mask 0xF00F selects a word by its first and last nibble. -/
theorem selects_ends {w v : Word} (h : (nibble0 w).toNat = v.toNat / 4096) (h' : (nibble3 w).toNat = v.toNat % 16)
    (hv : v.toNat / 16 % 256 = 0) (m : String) :
    OpRow.selects { mnemonic := m, mask := 0xF00F#16, value := v } w = true := by
  simp only [OpRow.selects, and_mask_ends w v hv, h, h', decide_true, Bool.and_self]

theorem formatA_high (op : Nibble) (nnn : Imm12) {v : Word} (h : op.toNat = v.toNat / 4096) :
    (nibble0 (formatA op nnn)).toNat = v.toNat / 4096 := by rw [nibble0_formatA, h]

theorem formatI_high (op : Nibble) (x : RegIdx) (kk : Byte) {v : Word} (h : op.toNat = v.toNat / 4096) :
    (nibble0 (formatI op x kk)).toNat = v.toNat / 4096 := by rw [nibble0_formatI, h]

theorem formatR_high (op f : Nibble) (x y : RegIdx) {v : Word} (h : op.toNat = v.toNat / 4096) :
    (nibble0 (formatR op x y f)).toNat = v.toNat / 4096 := by rw [nibble0_formatR, h]

theorem formatR_low (op f : Nibble) (x y : RegIdx) {v : Word} (h : f.toNat = v.toNat % 16) :
    (nibble3 (formatR op x y f)).toNat = v.toNat % 16 := by rw [nibble3_formatR, h]

theorem clear : Statement .clear :=
  ⟨{ mnemonic := "clear", mask := 0xFFFF#16, value := 0x00E0#16 }, by decide, rfl, by decide⟩
theorem ret : Statement .ret :=
  ⟨{ mnemonic := "return", mask := 0xFFFF#16, value := 0x00EE#16 }, by decide, rfl, by decide⟩
theorem jump (nnn : Imm12) : Statement (.jump nnn) :=
  ⟨_, by decide, rfl, selects_high (v := 0x1000#16) (formatA_high _ _ rfl) rfl "jump"⟩
theorem call (nnn : Imm12) : Statement (.call nnn) :=
  ⟨_, by decide, rfl, selects_high (v := 0x2000#16) (formatA_high _ _ rfl) rfl "call"⟩
theorem skipEqImm (x : RegIdx) (kk : Byte) : Statement (.skipEqImm x kk) :=
  ⟨_, by decide, rfl, selects_high (v := 0x3000#16) (formatI_high _ _ _ rfl) rfl "skip-if-equal-immediate"⟩
theorem skipNeImm (x : RegIdx) (kk : Byte) : Statement (.skipNeImm x kk) :=
  ⟨_, by decide, rfl, selects_high (v := 0x4000#16) (formatI_high _ _ _ rfl) rfl "skip-if-not-equal-immediate"⟩
theorem skipEqReg (x y : RegIdx) : Statement (.skipEqReg x y) :=
  ⟨_, by decide, rfl, selects_ends (v := 0x5000#16) (formatR_high _ _ _ _ rfl) (formatR_low _ _ _ _ rfl) rfl "skip-if-registers-equal"⟩
theorem loadImm (x : RegIdx) (kk : Byte) : Statement (.loadImm x kk) :=
  ⟨_, by decide, rfl, selects_high (v := 0x6000#16) (formatI_high _ _ _ rfl) rfl "load-immediate"⟩
theorem addImm (x : RegIdx) (kk : Byte) : Statement (.addImm x kk) :=
  ⟨_, by decide, rfl, selects_high (v := 0x7000#16) (formatI_high _ _ _ rfl) rfl "add-immediate"⟩
theorem copy (x y : RegIdx) : Statement (.copy x y) :=
  ⟨_, by decide, rfl, selects_ends (v := 0x8000#16) (formatR_high _ _ _ _ rfl) (formatR_low _ _ _ _ rfl) rfl "copy"⟩
theorem orReg (x y : RegIdx) : Statement (.orReg x y) :=
  ⟨_, by decide, rfl, selects_ends (v := 0x8001#16) (formatR_high _ _ _ _ rfl) (formatR_low _ _ _ _ rfl) rfl "or"⟩
theorem andReg (x y : RegIdx) : Statement (.andReg x y) :=
  ⟨_, by decide, rfl, selects_ends (v := 0x8002#16) (formatR_high _ _ _ _ rfl) (formatR_low _ _ _ _ rfl) rfl "and"⟩
theorem xorReg (x y : RegIdx) : Statement (.xorReg x y) :=
  ⟨_, by decide, rfl, selects_ends (v := 0x8003#16) (formatR_high _ _ _ _ rfl) (formatR_low _ _ _ _ rfl) rfl "xor"⟩
theorem addCarry (x y : RegIdx) : Statement (.addCarry x y) :=
  ⟨_, by decide, rfl, selects_ends (v := 0x8004#16) (formatR_high _ _ _ _ rfl) (formatR_low _ _ _ _ rfl) rfl "add-with-carry"⟩
theorem subBorrow (x y : RegIdx) : Statement (.subBorrow x y) :=
  ⟨_, by decide, rfl, selects_ends (v := 0x8005#16) (formatR_high _ _ _ _ rfl) (formatR_low _ _ _ _ rfl) rfl "sub-with-borrow"⟩
theorem shiftRight (x y : RegIdx) : Statement (.shiftRight x y) :=
  ⟨_, by decide, rfl, selects_ends (v := 0x8006#16) (formatR_high _ _ _ _ rfl) (formatR_low _ _ _ _ rfl) rfl "shift-right"⟩
theorem subnBorrow (x y : RegIdx) : Statement (.subnBorrow x y) :=
  ⟨_, by decide, rfl, selects_ends (v := 0x8007#16) (formatR_high _ _ _ _ rfl) (formatR_low _ _ _ _ rfl) rfl "subn-with-borrow"⟩
theorem shiftLeft (x y : RegIdx) : Statement (.shiftLeft x y) :=
  ⟨_, by decide, rfl, selects_ends (v := 0x800E#16) (formatR_high _ _ _ _ rfl) (formatR_low _ _ _ _ rfl) rfl "shift-left"⟩
theorem skipNeReg (x y : RegIdx) : Statement (.skipNeReg x y) :=
  ⟨_, by decide, rfl, selects_ends (v := 0x9000#16) (formatR_high _ _ _ _ rfl) (formatR_low _ _ _ _ rfl) rfl "skip-if-registers-not-equal"⟩
theorem loadIndex (nnn : Imm12) : Statement (.loadIndex nnn) :=
  ⟨_, by decide, rfl, selects_high (v := 0xA000#16) (formatA_high _ _ rfl) rfl "load-index"⟩
theorem jumpOffset (nnn : Imm12) : Statement (.jumpOffset nnn) :=
  ⟨_, by decide, rfl, selects_high (v := 0xB000#16) (formatA_high _ _ rfl) rfl "jump-offset"⟩
theorem randomAnd (x : RegIdx) (kk : Byte) : Statement (.randomAnd x kk) :=
  ⟨_, by decide, rfl, selects_high (v := 0xC000#16) (formatI_high _ _ _ rfl) rfl "random-and"⟩
theorem drawSprite (x y : RegIdx) (n : RowCount) : Statement (.drawSprite x y n) :=
  ⟨_, by decide, rfl, selects_high (v := 0xD000#16) (formatR_high _ _ _ _ rfl) rfl "draw-sprite"⟩

end Sys2Proof.Laws.TableRow
end

