-- ==== Sys2Proof/Tests/Slice0.lean ====
section
/-! SUPPORT. Tests. Expected values come from spec/95_test_vectors.md (its rows are named in the comments) or from the example of the
rule named; words are written out from the encodings of 30_encoding.md R55. First the checks of WellFormed, then decoding, then
single steps, then for every statement with hypotheses a state and operands that meet them. -/

namespace Sys2Proof.Tests

open Sys2Proof.Machine

/-! ### WellFormed: each check refuses something -/

theorem test_word_of_first_nibble_0 : wordWellFormed 0x0000#16 = false ∧ wordWellFormed 0x00E1#16 = false := by decide
theorem test_word_5xyN : wordWellFormed 0x5AB7#16 = false := by decide
theorem test_word_8xyN : wordWellFormed 0x8128#16 = false ∧ wordWellFormed 0x812F#16 = false := by decide
theorem test_word_9xyN : wordWellFormed 0x9ABF#16 = false := by decide
theorem test_word_first_nibble_E_or_F : wordWellFormed 0xE19E#16 = false ∧ wordWellFormed 0xFFFF#16 = false := by decide
theorem test_word_well_formed : wordWellFormed 0x812E#16 = true ∧ wordWellFormed 0xDFFF#16 = true := by decide
theorem test_image_too_long : imageWellFormed (List.replicate 3585 0x00#8) = false := by
  unfold imageWellFormed; rw [List.length_replicate]; decide
theorem test_image_of_full_length : imageWellFormed (List.replicate 3584 0x00#8) = true := by
  unfold imageWellFormed; rw [List.length_replicate]; decide

/-! ### Decoding, one word per constructor (R55) -/

theorem test_decode_clear : decodeWord 0x00E0#16 = .ok .clear := by decide
theorem test_decode_ret : decodeWord 0x00EE#16 = .ok .ret := by decide
theorem test_decode_jump : decodeWord 0x1ABC#16 = .ok (.jump 0xABC#12) := by decide
theorem test_decode_call : decodeWord 0x2ABC#16 = .ok (.call 0xABC#12) := by decide
theorem test_decode_skipEqImm : decodeWord 0x3AFE#16 = .ok (.skipEqImm 10 0xFE#8) := by decide
theorem test_decode_skipNeImm : decodeWord 0x4F01#16 = .ok (.skipNeImm 15 0x01#8) := by decide
theorem test_decode_skipEqReg : decodeWord 0x5120#16 = .ok (.skipEqReg 1 2) := by decide
theorem test_decode_loadImm : decodeWord 0x6A07#16 = .ok (.loadImm 10 0x07#8) := by decide
theorem test_decode_addImm : decodeWord 0x71FE#16 = .ok (.addImm 1 0xFE#8) := by decide
theorem test_decode_copy : decodeWord 0x8120#16 = .ok (.copy 1 2) := by decide
theorem test_decode_orReg : decodeWord 0x8121#16 = .ok (.orReg 1 2) := by decide
theorem test_decode_andReg : decodeWord 0x8122#16 = .ok (.andReg 1 2) := by decide
theorem test_decode_xorReg : decodeWord 0x8123#16 = .ok (.xorReg 1 2) := by decide
theorem test_decode_addCarry : decodeWord 0x8124#16 = .ok (.addCarry 1 2) := by decide
theorem test_decode_subBorrow : decodeWord 0x8125#16 = .ok (.subBorrow 1 2) := by decide
theorem test_decode_shiftRight : decodeWord 0x8126#16 = .ok (.shiftRight 1 2) := by decide
theorem test_decode_subnBorrow : decodeWord 0x8127#16 = .ok (.subnBorrow 1 2) := by decide
theorem test_decode_shiftLeft : decodeWord 0x812E#16 = .ok (.shiftLeft 1 2) := by decide
theorem test_decode_skipNeReg : decodeWord 0x9120#16 = .ok (.skipNeReg 1 2) := by decide
theorem test_decode_loadIndex : decodeWord 0xA50C#16 = .ok (.loadIndex 0x50C#12) := by decide
theorem test_decode_jumpOffset : decodeWord 0xB114#16 = .ok (.jumpOffset 0x114#12) := by decide
theorem test_decode_randomAnd : decodeWord 0xC10F#16 = .ok (.randomAnd 1 0x0F#8) := by decide
theorem test_decode_drawSprite : decodeWord 0xD125#16 = .ok (.drawSprite 1 2 5) := by decide
theorem test_decode_invalid : decodeWord 0x00C1#16 = .error (.invalidOpcode 0x00C1#16) := by decide
theorem test_decode_bytes : decode [0xD0#8, 0x15#8, 0x77#8] = .ok (.drawSprite 0 1 5, [0x77#8]) := by decide
theorem test_decode_one_byte : decode [0xD0#8] = .error .truncated := by decide
theorem test_table_word : decodeTableWord 16 0x812E = some (.shiftLeft 1 2) ∧ decodeTableWord 16 0x812F = none := by decide
theorem test_fault_codes : FaultCode.invalidOpcode.code = 1#3 ∧ FaultCode.stackOverflow.code = 2#3 ∧
    FaultCode.stackUnderflow.code = 3#3 ∧ FaultCode.addressError.code = 4#3 ∧ FaultCode.capacityError.code = 5#3 := by decide

/-! ### Single steps -/

/-- The word placed at `pc` and one step taken: what holds of the state it answers. -/
def after (s : State) (w : Nat) (p : State → Bool) : Bool :=
  match step (s.withFetchWord 16 w) with
  | .next t => p t
  | .fault _ => false
  | .refused _ => false

/-- The reset state with two registers set. -/
def withRegs (x : RegIdx) (a : Byte) (y : RegIdx) (b : Byte) : State := (State.reset.setReg x a).setReg y b

/-- X5: `clear` blanks, `pc` and the timers move on. -/
theorem test_step_clear : after { State.reset with disp := Display.setCell Display.blank 3 5 true } 0x00E0
    (fun t => displayView t 3 5 == false && t.pc == 0x0202#16 && t.dt == 0xFE#8) = true := by decide
/-- V-FLOW 5: `return` on the empty stack. -/
theorem test_step_ret_empty : after State.reset 0x00EE
    (fun t => t.fault == some ⟨.stackUnderflow, 0x0200#16, 0x00EE#16⟩ && t.pc == 0x0202#16 && t.dt == 0xFF#8) = true := by decide
/-- R71 example: the popped address. -/
theorem test_step_ret : after { State.reset with sp := 1, stack := State.reset.stack.set 0 0x0208#16 } 0x00EE
    (fun t => t.sp == 0 && t.pc == 0x0208#16 && t.stack[0] == 0x0208#16) = true := by decide
/-- V-FLOW 1. -/
theorem test_step_jump : after State.reset 0x1ABC (fun t => t.pc == 0x0ABC#16 && t.sp == 0 && t.st == 0xFE#8) = true := by decide
/-- V-FLOW 3. -/
theorem test_step_call : after State.reset 0x2ABC
    (fun t => t.stack[0] == 0x0202#16 && t.sp == 1 && t.pc == 0x0ABC#16) = true := by decide
/-- V-FLOW 6, c17. -/
theorem test_step_call_full : after { State.reset with sp := 16 } 0x2200
    (fun t => t.fault == some ⟨.stackOverflow, 0x0200#16, 0x2200#16⟩ && t.pc == 0x0202#16 && t.sp == 16) = true := by decide
/-- V-SKIP 3 and 2. -/
theorem test_step_skipEqImm : after (withRegs 10 0xFF#8 0 0x00#8) 0x3AFF (fun t => t.pc == 0x0204#16) = true ∧
    after State.reset 0x3001 (fun t => t.pc == 0x0202#16) = true := by decide
/-- V-SKIP 5 and 4. -/
theorem test_step_skipNeImm : after State.reset 0x4001 (fun t => t.pc == 0x0204#16) = true ∧
    after State.reset 0x4000 (fun t => t.pc == 0x0202#16) = true := by decide
/-- V-SKIP 6 and 7. -/
theorem test_step_skipEqReg : after (withRegs 0 0x05#8 1 0x05#8) 0x5010 (fun t => t.pc == 0x0204#16) = true ∧
    after (withRegs 0 0x05#8 1 0x06#8) 0x5010 (fun t => t.pc == 0x0202#16) = true := by decide
/-- V-SKIP 10 and 9. -/
theorem test_step_skipNeReg : after (withRegs 0 0x05#8 1 0x06#8) 0x9010 (fun t => t.pc == 0x0204#16) = true ∧
    after (withRegs 0 0x05#8 1 0x05#8) 0x9010 (fun t => t.pc == 0x0202#16) = true := by decide
/-- V-ALU `6F42`. -/
theorem test_step_loadImm : after State.reset 0x6F42 (fun t => t.reg 15 == 0x42#8) = true := by decide
/-- V-ALU `7101`: wraps, `VF` unchanged. -/
theorem test_step_addImm : after (withRegs 1 0xFF#8 15 0x33#8) 0x7101 (fun t => t.reg 1 == 0x00#8 && t.reg 15 == 0x33#8) = true := by decide
/-- V-ALU `8120`. -/
theorem test_step_copy : after (withRegs 1 0x11#8 2 0x3C#8) 0x8120 (fun t => t.reg 1 == 0x3C#8 && t.reg 2 == 0x3C#8) = true := by decide
/-- V-ALU `8121`. -/
theorem test_step_orReg : after (withRegs 1 0xAA#8 2 0x55#8) 0x8121 (fun t => t.reg 1 == 0xFF#8 && t.reg 15 == 0x00#8) = true := by decide
/-- V-ALU `8122`. -/
theorem test_step_andReg : after (withRegs 1 0xF3#8 2 0x3C#8) 0x8122 (fun t => t.reg 1 == 0x30#8) = true := by decide
/-- V-ALU `8123`. -/
theorem test_step_xorReg : after (withRegs 1 0x5A#8 2 0xFF#8) 0x8123 (fun t => t.reg 1 == 0xA5#8) = true := by decide
/-- V-ALU `8124`. -/
theorem test_step_addCarry : after (withRegs 1 0xC8#8 2 0x64#8) 0x8124 (fun t => t.reg 1 == 0x2C#8 && t.reg 15 == 0x01#8) = true := by decide
/-- V-ALU `8F24`: the flag is written last. -/
theorem test_step_addCarry_flag_last : after (withRegs 15 0x01#8 2 0x02#8) 0x8F24 (fun t => t.reg 15 == 0x00#8) = true := by decide
/-- V-ALU `8125`. -/
theorem test_step_subBorrow : after (withRegs 1 0x03#8 2 0x05#8) 0x8125 (fun t => t.reg 1 == 0xFE#8 && t.reg 15 == 0x00#8) = true := by decide
/-- V-ALU `81F5`: the old `VF` is the subtrahend. -/
theorem test_step_subBorrow_reads_flag : after (withRegs 1 0x10#8 15 0x01#8) 0x81F5
    (fun t => t.reg 1 == 0x0F#8 && t.reg 15 == 0x01#8) = true := by decide
/-- V-ALU `8126`: `V[2]` is ignored. -/
theorem test_step_shiftRight : after (withRegs 1 0x02#8 2 0x99#8) 0x8126 (fun t => t.reg 1 == 0x01#8 && t.reg 15 == 0x00#8) = true := by decide
/-- V-ALU `8F26`: the flag is written last. -/
theorem test_step_shiftRight_flag_last : after (withRegs 15 0x03#8 2 0x00#8) 0x8F26 (fun t => t.reg 15 == 0x01#8) = true := by decide
/-- V-ALU `8127`. -/
theorem test_step_subnBorrow : after (withRegs 1 0x01#8 2 0xFE#8) 0x8127 (fun t => t.reg 1 == 0xFD#8 && t.reg 15 == 0x01#8) = true := by decide
/-- V-ALU `812E`. -/
theorem test_step_shiftLeft : after (withRegs 1 0xC0#8 2 0x00#8) 0x812E (fun t => t.reg 1 == 0x80#8 && t.reg 15 == 0x01#8) = true := by decide
/-- V-ALU `8F2E`: the flag is written last. -/
theorem test_step_shiftLeft_flag_last : after (withRegs 15 0xC1#8 2 0x00#8) 0x8F2E (fun t => t.reg 15 == 0x01#8) = true := by decide
/-- V-INDEX `AFFF`. -/
theorem test_step_loadIndex : after State.reset 0xAFFF (fun t => t.index == 0x0FFF#16) = true := by decide
/-- V-FLOW 9: the largest sum, not reduced to 12 bits. -/
theorem test_step_jumpOffset : after (withRegs 0 0xFF#8 1 0x00#8) 0xBFFF (fun t => t.pc == 0x10FE#16) = true := by decide
/-- V-ALU `C100`: mask 0 gives 0 for every draw; one draw is consumed. -/
theorem test_step_randomAnd : after (withRegs 1 0x77#8 2 0x00#8) 0xC100 (fun t => t.draws == 1 && t.pc == 0x0202#16) = true := by decide
/-- V-DRAW 2: `V[0] = 70`, `V[1] = 33`, sprite byte 0x81 at 0x0208. -/
theorem test_step_drawSprite : after { (withRegs 0 70#8 1 33#8).writeBytes 0x0208 [0x81#8] with index := 0x0208#16 } 0xD011
    (fun t => displayView t 1 6 && displayView t 1 13 && !displayView t 1 7 && t.reg 15 == 0x00#8) = true := by decide
/-- V-DRAW 13: two bytes at 0x0FFF. -/
theorem test_step_drawSprite_outside : after { State.reset with index := 0x0FFF#16 } 0xD002
    (fun t => t.fault == some ⟨.addressError, 0x0200#16, 0xD002#16⟩ && t.pc == 0x0202#16 && t.dt == 0xFF#8) = true := by decide
/-- V-FAULT: an invalid word. -/
theorem test_step_invalid : after State.reset 0x5AB7
    (fun t => t.fault == some ⟨.invalidOpcode, 0x0200#16, 0x5AB7#16⟩ && t.pc == 0x0202#16 && t.st == 0xFF#8) = true := by decide

/-! ### For every statement with hypotheses, a state and operands that meet them -/

/-- The reset state with a word placed at `pc`. -/
def placed (w : Nat) : State := State.reset.withFetchWord 16 w

theorem witness_encodeOfDecode : decodeWord 0x8F2E#16 = .ok (.shiftLeft 15 2) := by decide
theorem witness_opcodeMapRow : ∃ row ∈ opRows, row.selects 0x5AB0#16 = true := by decide
theorem witness_opcodeMapRow_disjoint : ∃ a ∈ opRows, ∃ b ∈ opRows, a.selects 0x00EE#16 = true ∧ b.selects 0x00EE#16 = true := by
  decide
theorem witness_formatR : WordR 0x812E#16 0x8 1 2 0xE ∧ WordR 0xDFFF#16 0xD 15 15 15 := ⟨rfl, rfl⟩
theorem witness_formatI : WordI 0x3AFF#16 0x3 10 0xFF#8 ∧ WordI 0xC000#16 0xC 0 0x00#8 := ⟨rfl, rfl⟩
theorem witness_formatA : WordA 0x1FFF#16 0x1 0xFFF#12 ∧ WordA 0x2000#16 0x2 0x000#12 := ⟨rfl, rfl⟩
/-- A nonzero last nibble, at both ends of its range. -/
theorem witness_formatR_invalid : WordR 0x5AB1#16 0x5 10 11 1 ∧ WordR 0x9ABF#16 0x9 10 11 15 ∧
    (1 : Fin 16) ≠ 0 ∧ (15 : Fin 16) ≠ 0 := ⟨rfl, rfl, by decide, by decide⟩
/-- The premises of StepRunsDecodedInstruction, at the lowest and at the highest address a fetch allows. -/
theorem witness_stepRuns :
    (placed 0x1204).fault = none ∧ (placed 0x1204).pc.toNat = 0x0200 ∧
    decodeWord (wordOfBytes ((placed 0x1204).readByte 0x0200) ((placed 0x1204).readByte 0x0201)) = .ok (.jump 0x204#12) := by decide
theorem witness_stepRuns_last :
    decodeWord (({ State.reset with pc := 0x0FFE#16 }.withFetchWord 16 0x6A07).readWord 0x0FFE) = .ok (.loadImm 10 0x07#8) := by
  decide
theorem witness_stepRuns_next : ∃ t, exec (.jump 0x204#12) { placed 0x1204 with pc := 0x0202#16 } = .next t ∧ t.fault = none :=
  ⟨_, rfl, by decide⟩
/-- A latched record, and none. -/
theorem witness_latched : (raiseFetch State.reset).fault = some ⟨.addressError, 0x0200#16, 0x0000#16⟩ ∧ State.reset.fault = none := by
  decide
/-- FetchOutsideProgramFaults, each clause at its boundary: odd, below and above; the addresses next to them can be fetched from. -/
theorem witness_fetchOutside :
    (0x0201#16).toNat % 2 = 1 ∧ (0x0FFF#16).toNat % 2 = 1 ∧ (0x01FE#16).toNat < 0x0200 ∧ (0x1000#16).toNat > 0x0FFE ∧
    fetchOk 0x0201#16 = false ∧ fetchOk 0x01FE#16 = false ∧ fetchOk 0x1000#16 = false ∧
    fetchOk 0x0200#16 = true ∧ fetchOk 0x0FFE#16 = true := by decide
/-- InvalidWordFaultsUnexecuted: zeroed memory. -/
theorem witness_invalidWord : State.reset.fault = none ∧ State.reset.pc.toNat = 0x0200 ∧
    wordWellFormed (State.reset.readWord State.reset.pc.toNat) = false := by decide
/-- FaultingCycleIsPrecise; the second clause of EveryCompletedCycleTicksOnce. -/
theorem witness_faultingCycle : ∃ t r, step State.reset = .next t ∧ t.fault = some r := ⟨_, _, rfl, rfl⟩
/-- The first clause of EveryCompletedCycleTicksOnce; MemoryIsConstantUnderStep. -/
theorem witness_completedCycle : ∃ t, step (placed 0x1204) = .next t ∧ t.fault = none := ⟨_, rfl, by decide⟩
theorem witness_timers : ∃ t, Host.Core.run Sys2Proof.core 1 (placed 0x1204) = .next t ∧ t.fault = none := ⟨_, rfl, by decide⟩
/-- InvariantKeptByStep: a state that a run reaches and that is not the reset state. -/
theorem witness_invariant : Inv (placed 0x2204) ∧ placed 0x2204 ≠ State.reset ∧ ∃ t, step (placed 0x2204) = .next t ∧ t.sp = 1 :=
  ⟨⟨by decide, by decide, by decide, by decide, by decide, fun r h => absurd h (by simp [show (placed 0x2204).fault = none by decide])⟩,
    by decide, _, rfl, by decide⟩
/-- The last clause of FetchIsBigEndian; InvariantHoldsAtLaunch. -/
theorem witness_launch : ∃ s, launch [0x12#8, 0x00#8] = .ok s ∧ s.readWord 0x200 = 0x1200#16 := ⟨_, rfl, by decide⟩
/-- LoadCopiesImageVerbatim, at the longest image. -/
theorem witness_load : Memory.wf State.reset.mem = true ∧ (List.replicate 3584 0x00#8).length ≤ 3584 :=
  ⟨by decide, (List.length_replicate).le⟩
theorem witness_load_oversized : 3584 < (List.replicate 3585 0x00#8).length := by rw [List.length_replicate]; decide
/-- A stack with room, at both ends, and a full one. -/
theorem witness_call : State.reset.sp.val < 16 ∧ { State.reset with sp := 15 }.sp.val < 16 ∧ { State.reset with sp := 16 }.sp = 16 := by
  decide
/-- A stack with an entry in use, at both ends, and an empty one. -/
theorem witness_ret : { State.reset with sp := 1 }.sp ≠ 0 ∧ { State.reset with sp := 16 }.sp ≠ 0 ∧ State.reset.sp = 0 := by decide
theorem witness_callThenReturn : State.reset.sp.val < 16 ∧ ∃ t, exec (.call 0x300#12) State.reset = .next t ∧ t.sp = 1 :=
  ⟨by decide, _, rfl, by decide⟩
/-- Both cases of a skip, for two registers and for one register named twice. -/
theorem witness_skip : State.reset.reg 0 = 0x00#8 ∧ State.reset.reg 0 ≠ 0x01#8 ∧ State.reset.reg 0 = State.reset.reg 1 ∧
    (withRegs 0 0x05#8 1 0x06#8).reg 0 ≠ (withRegs 0 0x05#8 1 0x06#8).reg 1 := by decide
/-- Both cases of the carry, at the boundary 255 and 256, and a destination that is not `VF`. -/
theorem witness_carry :
    ((withRegs 1 0xFF#8 2 0x01#8).reg 1).toNat + ((withRegs 1 0xFF#8 2 0x01#8).reg 2).toNat = 256 ∧
    ((withRegs 1 0xFF#8 2 0x00#8).reg 1).toNat + ((withRegs 1 0xFF#8 2 0x00#8).reg 2).toNat = 255 ∧ (1 : RegIdx) ≠ 0xF := by decide
/-- Both cases of the borrow, at the boundary. -/
theorem witness_borrow : (withRegs 1 0x05#8 2 0x05#8).reg 1 ≥ (withRegs 1 0x05#8 2 0x05#8).reg 2 ∧
    (withRegs 1 0x04#8 2 0x05#8).reg 1 < (withRegs 1 0x04#8 2 0x05#8).reg 2 := by decide
/-- SpriteInMemory at its edges: the last byte at 0xFFF, and no rows at all. -/
theorem witness_sprite : SpriteInMemory { State.reset with index := 0x0FF1#16 } 15 ∧
    SpriteInMemory { State.reset with index := 0xFFFF#16 } 0 := ⟨.inr (by decide), .inl rfl⟩
/-- A covered cell that was on and one that was off: a sprite byte 0xC0 at 0x0208 over the cell (0, 0), which is on. -/
def overlap : State :=
  { State.reset.writeBytes 0x0208 [0xC0#8] with index := 0x0208#16, disp := Display.setCell Display.blank 0 0 true }

theorem witness_covered : SpriteCovers overlap 0 0 1 0 0 ∧ displayView overlap 0 0 = true ∧
    SpriteCovers overlap 0 0 1 0 1 ∧ displayView overlap 0 1 = false :=
  ⟨⟨0, 0, by decide⟩, by decide, ⟨0, 1, by decide⟩, by decide⟩
/-- Nothing covered: no rows. -/
theorem witness_notCovered : ¬ ∃ r c, SpriteCovers overlap 0 0 0 r c ∧ displayView overlap r c = true :=
  fun ⟨_, _, ⟨_, _, h, _⟩, _⟩ => absurd h (Nat.not_lt_zero _)
theorem witness_spriteOutside : 0 < (2 : RowCount).val ∧
    { State.reset with index := 0x0FFF#16 }.index.toNat + (2 : RowCount).val - 1 > 0x0FFF := by decide
/-- DoubleDrawRestoresDisplay, with the state after the first draw as the second one's. -/
theorem witness_doubleDraw : SpriteInMemory overlap 1 ∧ ∃ t, exec (.drawSprite 0 0 1) overlap = .next t ∧
    t.reg 0 = overlap.reg 0 ∧ t.index = overlap.index ∧ t.mem = overlap.mem := ⟨.inr (by decide), _, rfl, by decide⟩
/-- OnlySixInstructionsWriteTheFlag, both clauses. -/
theorem witness_flag_kept : writesFlag (.loadImm 0 0x01#8) = false ∧ destination (.loadImm 0 0x01#8) ≠ some 0xF ∧
    ∃ t, exec (.loadImm 0 0x01#8) State.reset = .next t := ⟨by decide, by decide, _, rfl⟩
theorem witness_flag_written : writesFlag (.addCarry 15 1) = true ∧ State.reset.fault = none ∧
    ∃ t, exec (.addCarry 15 1) State.reset = .next t ∧ t.fault = none := ⟨by decide, by decide, _, rfl, by decide⟩
/-- RegistersChangeOnlyAsDestinations, for an instruction with a destination and a flag. -/
theorem witness_registers : destination (.addCarry 1 2) ≠ some 3 ∧ ¬ (writesFlag (.addCarry 1 2) = true ∧ (3 : RegIdx) = 0xF) ∧
    ∃ t, exec (.addCarry 1 2) State.reset = .next t := ⟨by decide, by decide, _, rfl⟩
/-- OnlyCallAndReturnMoveTheStack: an instruction of neither kind, and `return`, which keeps the array. -/
theorem witness_stack : (∀ nnn, Instr.jump 0x300#12 ≠ .call nnn) ∧ Instr.jump 0x300#12 ≠ .ret ∧ (∀ nnn, Instr.ret ≠ .call nnn) ∧
    (∃ t, exec (.jump 0x300#12) State.reset = .next t) ∧ ∃ t, exec .ret { State.reset with sp := 1 } = .next t :=
  ⟨by simp, by simp, by simp, ⟨_, rfl⟩, _, rfl⟩
/-- OnlyClearAndDrawChangeTheDisplay, OtherInstructionsIgnoreRandomSource and the second clause of LoadIndexIsTheOnlyWriterOfIndex. -/
theorem witness_otherInstruction : Instr.ret ≠ .clear ∧ (∀ x y n, Instr.ret ≠ .drawSprite x y n) ∧
    (∀ x kk, Instr.ret ≠ .randomAnd x kk) ∧ (∀ nnn, Instr.ret ≠ .loadIndex nnn) ∧ ∃ t, exec .ret State.reset = .next t :=
  ⟨by simp, by simp, by simp, by simp, _, rfl⟩
/-- SelfJumpRunsForEver (P-programs end in such a jump). -/
theorem witness_selfJump : SelfJump (placed 0x1200) := ⟨by decide, by decide, 0x200#12, by decide, by decide⟩

end Sys2Proof.Tests
end

section
/-! SUPPORT. The cycle (00_scope.md R5): one equation of `step` for each way it can go, and that every instruction answers a next
state; then the two statements about the cycle's parts and the latch. -/

namespace Sys2Proof.Machine

/-! ### The four ways a step goes (R5, R117) -/

/-- A latched fault disables the cycle (R111, D6). -/
theorem step_of_latched {s : State} {r : FaultRecord} (hf : s.fault = some r) : step s = .fault (.halted r) := by
  simp only [step, hf]

/-- The fetch check fails first (R36). -/
theorem step_of_fetch_outside {s : State} (hf : s.fault = none) (hpc : fetchOk s.pc = false) :
    step s = .next (raiseFetch s) := by
  simp only [step, hf, hpc, Bool.false_eq_true, if_false]

/-- The decoder refuses the fetched word (R57). -/
theorem step_of_invalid {s : State} {e : DecodeError} (hf : s.fault = none) (hpc : fetchOk s.pc = true)
    (hd : decodeWord (fetchWord s) = .error e) : step s = .next (raiseInvalid (fetchWord s) (advance s)) := by
  simp only [step, hf, hpc, hd, if_true]

/-- The fetched word decodes: advance, execute, end the cycle. -/
theorem step_of_decoded {s : State} {i : Instr} (hf : s.fault = none) (hpc : fetchOk s.pc = true)
    (hd : decodeWord (fetchWord s) = .ok i) : step s = endCycle (exec i (advance s)) := by
  simp only [step, hf, hpc, hd, if_true]

/-! ### What an instruction and the end of its cycle answer -/

/-- The end of a cycle whose instruction answered `t`: a tick, unless `t` has a fault latched (R122, R111). -/
theorem endCycle_of_next (t : State) : endCycle (.next t) = .next (if t.fault = none then tick t else t) := by
  simp only [endCycle, Option.isNone_iff_eq_none]

theorem execRet_answers_next (s : State) : ∃ t, execRet s = .next t := by
  by_cases hsp : s.sp = 0
  · exact ⟨_, execRet_of_empty hsp⟩
  · exact ⟨_, execRet_of_entry hsp (by omega)⟩

theorem execCall_answers_next (nnn : Imm12) (s : State) : ∃ t, execCall nnn s = .next t := by
  by_cases hsp : s.sp.val < 16
  · exact ⟨_, execCall_of_room nnn hsp⟩
  · exact ⟨_, execCall_of_full nnn hsp⟩

theorem execDrawSprite_answers_next (x y : RegIdx) (n : RowCount) (s : State) : ∃ t, execDrawSprite x y n s = .next t := by
  cases hout : spriteOutside s n with
  | false => exact ⟨_, execDrawSprite_of_inside x y hout⟩
  | true => exact ⟨_, execDrawSprite_of_outside x y hout⟩

/-- Only `return`, `call` and `draw-sprite` check anything, and a failed check latches its record in a next state (log entry 3). -/
theorem exec_answers_next (i : Instr) (s : State) : ∃ t, exec i s = .next t := by
  cases i with
  | ret => exact execRet_answers_next s
  | call nnn => exact execCall_answers_next nnn s
  | drawSprite x y n => exact execDrawSprite_answers_next x y n s
  | _ => exact ⟨_, rfl⟩

/-- With no fault latched, every way a cycle goes answers a next state. -/
theorem step_answers_next {s : State} (hf : s.fault = none) : ∃ t, step s = .next t := by
  cases hpc : fetchOk s.pc with
  | false => exact ⟨_, step_of_fetch_outside hf hpc⟩
  | true =>
    cases hd : decodeWord (fetchWord s) with
    | error e => exact ⟨_, step_of_invalid hf hpc hd⟩
    | ok i =>
      obtain ⟨t, ht⟩ := exec_answers_next i (advance s)
      refine ⟨if t.fault = none then tick t else t, ?_⟩
      rw [step_of_decoded hf hpc hd, ht, endCycle_of_next]

/-- Settles O8: a latched record is the only way to have no next state, by the four ways a step goes. -/
theorem latchedFaultDisablesTheCycle : Obligations.LatchedFaultDisablesTheCycle :=
  ⟨fun _ _ hf => step_of_latched hf, fun _ hf => step_answers_next hf⟩

/-- Settles O7: the fetch check passes and the word decodes, so the step is the decoded way; the tick is `endCycle`'s. -/
theorem stepRunsDecodedInstruction : Obligations.StepRunsDecodedInstruction := by
  intro s i hf heven hlo hhi hd
  have hstep : step s = endCycle (exec i (advance s)) :=
    step_of_decoded hf ((fetchOk_iff s.pc).2 ⟨heven, hlo, hhi⟩) hd
  refine ⟨hstep, fun t ht => ?_⟩
  have ht' : exec i (advance s) = .next t := ht
  rw [hstep, ht', endCycle_of_next]
  rfl

end Sys2Proof.Machine
end

section
/-! SUPPORT. The decoder and its inverse (30_encoding.md R53 to R57), as far as a fault record needs them: a word is the encoding of
the instruction it decodes to, and a word that is refused matches no row of the opcode map. -/

namespace Sys2Proof

/-! ### A word rebuilt from its fields, one lemma per format (R53) -/

theorem formatA_fields {w : Word} {op : Nibble} (h0 : nibble0 w = op) : formatA op (fieldNNN w) = w := by
  rw [fieldNNN, formatA_eq, ← h0, word_eq_nibbles]

theorem formatI_fields {w : Word} {op : Nibble} (h0 : nibble0 w = op) : formatI op (fieldX w) (fieldKK w) = w := by
  rw [fieldKK, formatI_eq, fieldX, regNibble_nibbleReg, ← h0, word_eq_nibbles]

theorem formatR_fields {w : Word} {op f : Nibble} (h0 : nibble0 w = op) (h3 : nibble3 w = f) :
    formatR op (fieldX w) (fieldY w) f = w := by
  rw [formatR, fieldX, fieldY, regNibble_nibbleReg, regNibble_nibbleReg, ← h0, ← h3, word_eq_nibbles]

theorem formatS_fields {w : Word} (h0 : nibble0 w = 0xD#4) : formatS (fieldX w) (fieldY w) (fieldN w) = w :=
  formatR_fields h0 rfl

/-! ### `encode` inverts the decoder -/

theorem encode_of_decodeZero {w : Word} {i : Instr} (h : decodeZero w = .ok i) : encode i = w := by
  unfold decodeZero at h
  split at h
  · next hw => cases h; exact hw.symm
  · split at h
    · next hw => cases h; exact hw.symm
    · cases h

theorem encode_of_decodeAlu {w : Word} {i : Instr} (h0 : nibble0 w = 0x8#4) (h : decodeAlu w = .ok i) : encode i = w := by
  unfold decodeAlu at h
  split at h <;> cases h <;> exact formatR_fields h0 ‹_›

theorem decodeAlu_error {w : Word} {e : DecodeError} (h : decodeAlu w = .error e) :
    nibble3 w ∉ [0x0#4, 0x1#4, 0x2#4, 0x3#4, 0x4#4, 0x5#4, 0x6#4, 0x7#4, 0xE#4] := by
  unfold decodeAlu at h
  split at h
  case h_10 => simp_all
  all_goals cases h

theorem decodePair_ok {mk : RegIdx → RegIdx → Instr} {w : Word} {i : Instr} (h : decodePair mk w = .ok i) :
    nibble3 w = 0x0#4 ∧ i = mk (fieldX w) (fieldY w) := by
  unfold decodePair at h
  split at h
  · next h3 => cases h; exact ⟨h3, rfl⟩
  · cases h

theorem decodePair_error {mk : RegIdx → RegIdx → Instr} {w : Word} {e : DecodeError} (h : decodePair mk w = .error e) :
    nibble3 w ≠ 0x0#4 := by
  unfold decodePair at h
  split at h
  · cases h
  · assumption

/-- A word that decodes is the word of the instruction it decodes to: no bit of it is ignored (R53, R56). -/
theorem encode_of_decodeWord {w : Word} {i : Instr} (h : decodeWord w = .ok i) : encode i = w := by
  unfold decodeWord at h
  split at h
  case h_1 => exact encode_of_decodeZero h
  case h_2 h0 | h_3 h0 | h_11 h0 | h_12 h0 => cases h; exact formatA_fields h0
  case h_4 h0 | h_5 h0 | h_7 h0 | h_8 h0 | h_13 h0 => cases h; exact formatI_fields h0
  case h_6 h0 | h_10 h0 =>
    obtain ⟨h3, rfl⟩ := decodePair_ok h
    exact formatR_fields h0 h3
  case h_9 h0 => exact encode_of_decodeAlu h0 h
  case h_14 h0 => cases h; exact formatS_fields h0
  case h_15 => cases h

/-! ### A refused word matches no row of the opcode map (R57) -/

theorem selects_mask_all (m : String) (v w : Word) : OpRow.selects ⟨m, 0xFFFF#16, v⟩ w = (w == v) := by
  have : w &&& 0xFFFF#16 = w := BitVec.and_allOnes
  simp only [OpRow.selects, this]

theorem selects_mask_high (m : String) (w : Word) {v : Word} (hv : v.toNat % 4096 = 0) :
    OpRow.selects ⟨m, 0xF000#16, v⟩ w = (nibble0 w == BitVec.ofNat 4 (v.toNat / 4096)) := by
  simp only [OpRow.selects, and_mask_high w v hv, ← toNat_nibble0 v, BitVec.ofNat_toNat, BitVec.setWidth_eq,
    BitVec.toNat_inj, beq_eq_decide]

theorem selects_mask_ends (m : String) (w : Word) {v : Word} (hv : v.toNat / 16 % 256 = 0) :
    OpRow.selects ⟨m, 0xF00F#16, v⟩ w =
      (nibble0 w == BitVec.ofNat 4 (v.toNat / 4096) && nibble3 w == BitVec.ofNat 4 (v.toNat % 16)) := by
  simp only [OpRow.selects, and_mask_ends w v hv, ← toNat_nibble0 v, ← toNat_nibble3 v, BitVec.ofNat_toNat,
    BitVec.setWidth_eq, BitVec.toNat_inj, beq_eq_decide]

/-- The opcode map by nibbles: two fixed words, the first nibbles that fix the instruction, and those that fix it with the
last nibble (R55, R56). -/
theorem wordWellFormed_iff (w : Word) : wordWellFormed w = true ↔
    (w = 0x00E0#16 ∨ w = 0x00EE#16) ∨
    nibble0 w ∈ [0x1#4, 0x2#4, 0x3#4, 0x4#4, 0x6#4, 0x7#4, 0xA#4, 0xB#4, 0xC#4, 0xD#4] ∨
    (nibble0 w ∈ [0x5#4, 0x9#4] ∧ nibble3 w = 0x0#4) ∨
    (nibble0 w = 0x8#4 ∧ nibble3 w ∈ [0x0#4, 0x1#4, 0x2#4, 0x3#4, 0x4#4, 0x5#4, 0x6#4, 0x7#4, 0xE#4]) := by
  simp only [wordWellFormed, opRows, opRowsLow, opRowsAlu, opRowsHigh, List.any_append, List.any_cons, List.any_nil,
    selects_mask_all, selects_mask_high, selects_mask_ends, BitVec.toNat_ofNat, Nat.reducePow, Nat.reduceMod,
    Nat.reduceDiv, Bool.or_eq_true, Bool.and_eq_true, beq_iff_eq, List.mem_cons, List.not_mem_nil, or_false, Bool.false_eq_true]
  -- both sides now list the same conditions, the rows in the map's order and by kind
  grind

/-- A word the decoder refuses is selected by no row (R57). -/
theorem wordWellFormed_of_decodeWord_error {w : Word} {e : DecodeError} (h : decodeWord w = .error e) :
    wordWellFormed w = false := by
  have hfixed : w ≠ 0x00E0#16 ∧ w ≠ 0x00EE#16 := by
    constructor <;> (rintro rfl; cases h)
  rw [← Bool.not_eq_true, wordWellFormed_iff]
  unfold decodeWord at h
  split at h
  case h_1 h0 => simp [hfixed, h0]
  case h_6 h0 | h_10 h0 => simp [hfixed, h0, decodePair_error h]
  case h_9 h0 => simp [hfixed, h0, decodeAlu_error h]
  case h_15 => simp_all
  all_goals cases h

end Sys2Proof
end

section
/-! SUPPORT. What one instruction can do, said once (40_flow.md to 43_index_draw.md, 60_exceptions.md R113 to R115): either one of
the effects below, or a check of its own that fails and latches a record. What an instruction leaves unchanged is read off this
split. -/

namespace Sys2Proof.Machine

/-- What an instruction that completes does to the state it is entered in. -/
inductive Effect (s : State) : Instr → State → Prop
  /-- a result in the destination, no flag (R81 to R86) -/
  | writesDest {i : Instr} {x : RegIdx} (v : Byte) (hx : destination i = some x) (hf : writesFlag i = false) :
      Effect s i (s.setReg x v)
  /-- a result and a flag (R87 to R91) -/
  | writesDestAndFlag {i : Instr} {x : RegIdx} (v : Byte) (f : Bool) (hx : destination i = some x) (hf : writesFlag i = true) :
      Effect s i (s.setResultFlag x v f)
  /-- a random result (R92) -/
  | random (x : RegIdx) (kk : Byte) : Effect s (.randomAnd x kk) (s.setReg x (s.nextRand &&& kk)).drawDone
  /-- `pc` stays or moves on by 2 (R75) -/
  | skips {i : Instr} (taken : Bool) (hf : writesFlag i = false) :
      Effect s i { s with pc := if taken then s.pc + 2#16 else s.pc }
  /-- `pc` is a target, at most the largest sum of an address and a byte (R72, R74) -/
  | jumps {i : Instr} (a : Word) (ha : a.toNat ≤ 0x10FE) (hf : writesFlag i = false) : Effect s i { s with pc := a }
  /-- `call` with room (R73) -/
  | pushes (nnn : Imm12) (h : s.sp.val < 16) :
      Effect s (.call nnn) { s with stack := s.stack.set s.sp.val s.pc h, sp := spUp s.sp, pc := addrOf nnn }
  /-- `return` with an entry in use (R71) -/
  | pops (h : s.sp ≠ 0) (hk : s.sp.val - 1 < 16) :
      Effect s .ret { s with sp := spDown s.sp, pc := s.stack[s.sp.val - 1] }
  /-- `load-index` (R100) -/
  | setsIndex (nnn : Imm12) : Effect s (.loadIndex nnn) { s with index := addrOf nnn }
  /-- `clear` (R101) -/
  | blanks : Effect s .clear { s with disp := Display.blank }
  /-- `draw-sprite` with its bytes in memory (R102) -/
  | draws (x y : RegIdx) (n : RowCount) (h : spriteOutside s n = false) :
      Effect s (.drawSprite x y n)
        (State.setReg { s with disp := (drawnCanvas x y n s).disp } 0xF (flagByte (drawnCanvas x y n s).collision))

/-- The check of its own that an instruction fails, with the code it raises (R113, R114, R115 cause (b)). -/
inductive FailedCheck (s : State) : FaultCode → Instr → Prop
  | stackFull (nnn : Imm12) (h : ¬ s.sp.val < 16) : FailedCheck s .stackOverflow (.call nnn)
  | stackEmpty (h : s.sp = 0) : FailedCheck s .stackUnderflow .ret
  | spriteOutside (x y : RegIdx) (n : RowCount) (h : spriteOutside s n = true) :
      FailedCheck s .addressError (.drawSprite x y n)

/-- What an instruction answers: its effect, or the record of its failed check. -/
inductive Answer (s : State) (i : Instr) : State → Prop
  | completed {t : State} (h : Effect s i t) : Answer s i t
  | raised {c : FaultCode} (h : FailedCheck s c i) : Answer s i (raiseFrom c i s)

/-- The target of `jump-offset` does not wrap (D22). -/
theorem toNat_jumpOffset_le (nnn : Imm12) (b : Byte) : (addrOf nnn + wordOf b).toNat ≤ 0x10FE := by
  have := nnn.isLt
  have := b.isLt
  rw [BitVec.toNat_add, toNat_addrOf, toNat_wordOf]
  omega

theorem toNat_addrOf_le (nnn : Imm12) : (addrOf nnn).toNat ≤ 0x0FFF := by
  have := nnn.isLt
  rw [toNat_addrOf]
  omega

theorem execRet_answer (s : State) : ∃ t, execRet s = .next t ∧ Answer s .ret t := by
  by_cases hsp : s.sp = 0
  · exact ⟨_, execRet_of_empty hsp, .raised (.stackEmpty hsp)⟩
  · exact ⟨_, execRet_of_entry hsp (by omega), .completed (.pops hsp _)⟩

theorem execCall_answer (nnn : Imm12) (s : State) : ∃ t, execCall nnn s = .next t ∧ Answer s (.call nnn) t := by
  by_cases hsp : s.sp.val < 16
  · exact ⟨_, execCall_of_room nnn hsp, .completed (.pushes nnn hsp)⟩
  · exact ⟨_, execCall_of_full nnn hsp, .raised (.stackFull nnn hsp)⟩

theorem execDrawSprite_answer (x y : RegIdx) (n : RowCount) (s : State) :
    ∃ t, execDrawSprite x y n s = .next t ∧ Answer s (.drawSprite x y n) t := by
  cases hout : spriteOutside s n with
  | false => exact ⟨_, execDrawSprite_of_inside x y hout, .completed (.draws x y n hout)⟩
  | true => exact ⟨_, execDrawSprite_of_outside x y hout, .raised (.spriteOutside x y n hout)⟩

theorem skip_answer {i : Instr} {s : State} (taken : Bool) (hf : writesFlag i = false)
    (h : exec i s = .next (skipWhen taken s)) : ∃ t, exec i s = .next t ∧ Answer s i t :=
  ⟨_, h.trans (congrArg _ (skipWhen_eq taken s)), .completed (.skips taken hf)⟩

/-- Every instruction answers a next state, by its effect or its failed check. -/
theorem exec_answer (i : Instr) (s : State) : ∃ t, exec i s = .next t ∧ Answer s i t := by
  cases i with
  | clear => exact ⟨_, rfl, .completed .blanks⟩
  | ret => exact execRet_answer s
  | call nnn => exact execCall_answer nnn s
  | drawSprite x y n => exact execDrawSprite_answer x y n s
  | jump nnn => exact ⟨_, rfl, .completed (.jumps _ ((toNat_addrOf_le nnn).trans (by decide)) rfl)⟩
  | jumpOffset nnn => exact ⟨_, rfl, .completed (.jumps _ (toNat_jumpOffset_le nnn _) rfl)⟩
  | skipEqImm x kk => exact skip_answer _ rfl rfl
  | skipNeImm x kk => exact skip_answer _ rfl rfl
  | skipEqReg x y => exact skip_answer _ rfl rfl
  | skipNeReg x y => exact skip_answer _ rfl rfl
  | loadIndex nnn => exact ⟨_, rfl, .completed (.setsIndex nnn)⟩
  | randomAnd x kk => exact ⟨_, rfl, .completed (.random x kk)⟩
  | loadImm x kk => exact ⟨_, rfl, .completed (.writesDest _ rfl rfl)⟩
  | addImm x kk => exact ⟨_, rfl, .completed (.writesDest _ rfl rfl)⟩
  | copy x y => exact ⟨_, rfl, .completed (.writesDest _ rfl rfl)⟩
  | orReg x y => exact ⟨_, rfl, .completed (.writesDest _ rfl rfl)⟩
  | andReg x y => exact ⟨_, rfl, .completed (.writesDest _ rfl rfl)⟩
  | xorReg x y => exact ⟨_, rfl, .completed (.writesDest _ rfl rfl)⟩
  | addCarry x y => exact ⟨_, rfl, .completed (.writesDestAndFlag _ _ rfl rfl)⟩
  | subBorrow x y => exact ⟨_, rfl, .completed (.writesDestAndFlag _ _ rfl rfl)⟩
  | shiftRight x y => exact ⟨_, rfl, .completed (.writesDestAndFlag _ _ rfl rfl)⟩
  | subnBorrow x y => exact ⟨_, rfl, .completed (.writesDestAndFlag _ _ rfl rfl)⟩
  | shiftLeft x y => exact ⟨_, rfl, .completed (.writesDestAndFlag _ _ rfl rfl)⟩

/-- The inversion of `exec`. -/
theorem answer_of_exec {i : Instr} {s t : State} (h : exec i s = .next t) : Answer s i t := by
  obtain ⟨u, hu, ha⟩ := exec_answer i s
  obtain rfl : u = t := Host.Outcome.next.inj (hu.symm.trans h)
  exact ha

end Sys2Proof.Machine
end

section
/-! SUPPORT. Who may write a register, the call stack and the display (10_state.md R10 to R18), read off the effects; and that only
`random-and` looks at the random source (R21). -/

namespace Sys2Proof.Machine

/-! ### Registers and the flag (R10, R11) -/

theorem flagByte_cases (b : Bool) : flagByte b = 0x00#8 ∨ flagByte b = 0x01#8 := by
  cases b
  · exact .inl rfl
  · exact .inr rfl

theorem Effect.reg_eq {s t : State} {i : Instr} {r : RegIdx} (h : Effect s i t) (hd : destination i ≠ some r)
    (hf : ¬ (writesFlag i = true ∧ r = 0xF)) : t.reg r = s.reg r := by
  cases h with
  | writesDest v hx _ => exact State.reg_setReg_of_ne s v fun e => hd (e ▸ hx)
  | @writesDestAndFlag _ x v f hx hw =>
    have hflag : r ≠ 0xF := fun e => hf ⟨hw, e⟩
    have hdest : r ≠ x := fun e => hd (e ▸ hx)
    rw [State.reg_setResultFlag, if_neg hflag, if_neg hdest]
  | random x kk => exact State.reg_setReg_of_ne s _ fun e => hd (congrArg some e.symm)
  | draws x y n _ => exact State.reg_setReg_of_ne _ _ fun e => hf ⟨rfl, e⟩
  | _ => rfl

theorem Effect.flag_cases {s t : State} {i : Instr} (h : Effect s i t) (hw : writesFlag i = true) :
    t.reg 0xF = 0x00#8 ∨ t.reg 0xF = 0x01#8 := by
  cases h with
  | writesDestAndFlag v f _ _ =>
    rw [State.reg_setResultFlag, if_pos rfl]
    exact flagByte_cases f
  | draws x y n _ =>
    rw [State.reg_setReg_same]
    exact flagByte_cases _
  | writesDest _ _ hf => cases hf.symm.trans hw
  | skips _ hf => cases hf.symm.trans hw
  | jumps _ _ hf => cases hf.symm.trans hw
  | _ => cases hw

/-- Settles O52: every effect writes registers only where the classes of R10 and R11 say; a failed check writes none. -/
theorem registersChangeOnlyAsDestinations : Obligations.RegistersChangeOnlyAsDestinations := by
  intro i s t r h hd hf
  cases answer_of_exec h with
  | completed he => exact he.reg_eq hd hf
  | raised _ => rfl

/-- Settles O51: the first clause is O52 at `VF`; the second is read off the two effects that write a flag. -/
theorem onlySixInstructionsWriteTheFlag : Obligations.OnlySixInstructionsWriteTheFlag := by
  intro i s t h
  refine ⟨fun hw hd => registersChangeOnlyAsDestinations i s t 0xF h hd (by simp [hw]), fun hw _ ht => ?_⟩
  cases answer_of_exec h with
  | completed he => exact he.flag_cases hw
  | raised _ => cases ht

/-! ### The call stack and the display (R14, R15, R18) -/

theorem Effect.stack_eq {s t : State} {i : Instr} (h : Effect s i t) (hc : ∀ nnn, i ≠ .call nnn) : t.stack = s.stack := by
  cases h with
  | pushes nnn _ => exact absurd rfl (hc nnn)
  | _ => rfl

theorem Effect.sp_eq {s t : State} {i : Instr} (h : Effect s i t) (hc : ∀ nnn, i ≠ .call nnn) (hr : i ≠ .ret) :
    t.sp = s.sp := by
  cases h with
  | pushes nnn _ => exact absurd rfl (hc nnn)
  | pops _ _ => exact absurd rfl hr
  | _ => rfl

theorem Effect.disp_eq {s t : State} {i : Instr} (h : Effect s i t) (hc : i ≠ .clear)
    (hd : ∀ x y n, i ≠ .drawSprite x y n) : t.disp = s.disp := by
  cases h with
  | blanks => exact absurd rfl hc
  | draws x y n _ => exact absurd rfl (hd x y n)
  | _ => rfl

/-- Settles O53: only the effect of `call` writes the array, only those of `call` and `return` write `sp`. -/
theorem onlyCallAndReturnMoveTheStack : Obligations.OnlyCallAndReturnMoveTheStack := by
  intro i s t h
  cases answer_of_exec h with
  | completed he => exact ⟨he.stack_eq, he.sp_eq⟩
  | raised _ => exact ⟨fun _ => rfl, fun _ _ => rfl⟩

/-- Settles O54: only the effects of `clear` and `draw-sprite` write the display. -/
theorem onlyClearAndDrawChangeTheDisplay : Obligations.OnlyClearAndDrawChangeTheDisplay := by
  intro i s t hc hd h
  cases answer_of_exec h with
  | completed he => exact he.disp_eq hc hd
  | raised _ => rfl

/-! ### The random source (R21) -/

theorem execRet_withDraws {s t : State} (d : Nat) (h : execRet s = .next t) :
    execRet { s with draws := d } = .next { t with draws := d } := by
  by_cases hsp : s.sp = 0
  · obtain rfl := Host.Outcome.next.inj ((execRet_of_empty hsp).symm.trans h)
    exact execRet_of_empty (s := { s with draws := d }) hsp
  · obtain rfl := Host.Outcome.next.inj ((execRet_of_entry hsp (by omega)).symm.trans h)
    exact execRet_of_entry (s := { s with draws := d }) hsp _

theorem execCall_withDraws {nnn : Imm12} {s t : State} (d : Nat) (h : execCall nnn s = .next t) :
    execCall nnn { s with draws := d } = .next { t with draws := d } := by
  by_cases hsp : s.sp.val < 16
  · obtain rfl := Host.Outcome.next.inj ((execCall_of_room nnn hsp).symm.trans h)
    exact execCall_of_room (s := { s with draws := d }) nnn hsp
  · obtain rfl := Host.Outcome.next.inj ((execCall_of_full nnn hsp).symm.trans h)
    exact execCall_of_full (s := { s with draws := d }) nnn hsp

theorem execDrawSprite_withDraws {x y : RegIdx} {n : RowCount} {s t : State} (d : Nat) (h : execDrawSprite x y n s = .next t) :
    execDrawSprite x y n { s with draws := d } = .next { t with draws := d } := by
  cases hout : spriteOutside s n with
  | false =>
    obtain rfl := Host.Outcome.next.inj ((execDrawSprite_of_inside x y hout).symm.trans h)
    exact execDrawSprite_of_inside (s := { s with draws := d }) x y hout
  | true =>
    obtain rfl := Host.Outcome.next.inj ((execDrawSprite_of_outside x y hout).symm.trans h)
    exact execDrawSprite_of_outside (s := { s with draws := d }) x y hout

/-- A skip decides by registers alone. -/
theorem skipWhen_withDraws (b : Bool) (s : State) (d : Nat) :
    skipWhen b { s with draws := d } = { skipWhen b s with draws := d } := by
  cases b <;> rfl

theorem exec_withDraws {i : Instr} {s t : State} (d : Nat) (hi : ∀ x kk, i ≠ .randomAnd x kk) (h : exec i s = .next t) :
    exec i { s with draws := d } = .next { t with draws := d } := by
  cases i with
  | randomAnd x kk => exact absurd rfl (hi x kk)
  | ret => exact execRet_withDraws d h
  | call nnn => exact execCall_withDraws d h
  | drawSprite x y n => exact execDrawSprite_withDraws d h
  | skipEqImm x kk => exact Host.Outcome.next.inj h ▸ congrArg Host.Outcome.next (skipWhen_withDraws _ s d)
  | skipNeImm x kk => exact Host.Outcome.next.inj h ▸ congrArg Host.Outcome.next (skipWhen_withDraws _ s d)
  | skipEqReg x y => exact Host.Outcome.next.inj h ▸ congrArg Host.Outcome.next (skipWhen_withDraws _ s d)
  | skipNeReg x y => exact Host.Outcome.next.inj h ▸ congrArg Host.Outcome.next (skipWhen_withDraws _ s d)
  | _ =>
    obtain rfl := Host.Outcome.next.inj h
    rfl

/-- Settles O56: with any count of draws the answer is the same but for the count; at the count of `s` itself that says that
`t` keeps it. -/
theorem otherInstructionsIgnoreRandomSource : Obligations.OtherInstructionsIgnoreRandomSource := by
  intro i s t d hi h
  have hsame : t = { t with draws := s.draws } := Host.Outcome.next.inj (h.symm.trans (exec_withDraws s.draws hi h))
  have hdraws := congrArg State.draws hsame
  exact ⟨hdraws, exec_withDraws d hi h⟩

end Sys2Proof.Machine
end

section
/-! SUPPORT. What one cycle can do, said once (00_scope.md R5), and the timers (10_state.md R16, R17, R122). -/

namespace Sys2Proof.Machine

/-! ### What no instruction changes: memory, the record, the timers -/

theorem Effect.mem_eq {s t : State} {i : Instr} (h : Effect s i t) : t.mem = s.mem := by cases h <;> rfl

theorem Effect.fault_eq {s t : State} {i : Instr} (h : Effect s i t) : t.fault = s.fault := by cases h <;> rfl

theorem Effect.timers_eq {s t : State} {i : Instr} (h : Effect s i t) : t.dt = s.dt ∧ t.st = s.st := by
  cases h <;> exact ⟨rfl, rfl⟩

/-! ### The four ways of a cycle -/

/-- The ways a cycle that answers a next state can go (R5, R111), all seen from the state before it. -/
inductive CycleOutcome (s : State) : State → Prop
  /-- the fetch is forbidden (R115 cause (a)) -/
  | fetchRaises (hpc : fetchOk s.pc = false) :
      CycleOutcome s { s with fault := some ⟨.addressError, s.pc, 0x0000#16⟩ }
  /-- the word is invalid (R112) -/
  | decodeRaises {e : DecodeError} (hpc : fetchOk s.pc = true) (hd : decodeWord (fetchWord s) = .error e) :
      CycleOutcome s { s with pc := s.pc + 2#16, fault := some ⟨.invalidOpcode, s.pc, fetchWord s⟩ }
  /-- the instruction fails its own check -/
  | execRaises {i : Instr} {c : FaultCode} (hpc : fetchOk s.pc = true) (hd : decodeWord (fetchWord s) = .ok i)
      (hc : FailedCheck (advance s) c i) :
      CycleOutcome s { s with pc := s.pc + 2#16, fault := some ⟨c, s.pc, fetchWord s⟩ }
  /-- the instruction completes and the timers tick (R122) -/
  | completes {i : Instr} {u : State} (hpc : fetchOk s.pc = true) (hd : decodeWord (fetchWord s) = .ok i)
      (he : Effect (advance s) i u) : CycleOutcome s (tick u)

/-- The inversion of `step`; a raised record holds the fetched word, since encoding inverts the decoder. -/
theorem cycleOutcome_of_step {s t : State} (h : step s = .next t) : s.fault = none ∧ CycleOutcome s t := by
  obtain ⟨hs, ⟨hpc, rfl⟩ | ⟨hpc, ⟨e, hd⟩, rfl⟩ | ⟨hpc, i, hd, u, hu, ht⟩⟩ := step_next h
  · exact ⟨hs, .fetchRaises hpc⟩
  · rw [raiseInvalid_advance]
    exact ⟨hs, .decodeRaises hpc hd⟩
  · refine ⟨hs, ?_⟩
    cases answer_of_exec hu with
    | completed he =>
      obtain ⟨-, rfl⟩ | ⟨hf, -⟩ := ht
      · exact .completes hpc hd he
      · exact absurd (he.fault_eq.trans hs) hf
    | raised hc =>
      obtain ⟨hf, -⟩ | ⟨-, rfl⟩ := ht
      · cases hf
      · rw [raiseFrom_advance, encode_of_decodeWord hd]
        exact .execRaises hpc hd hc

/-! ### The timers -/

/-- Settles O12: only the completed way ticks, and no instruction writes a timer. -/
theorem everyCompletedCycleTicksOnce : Obligations.EveryCompletedCycleTicksOnce := by
  intro s t h
  obtain ⟨hs, hcycle⟩ := cycleOutcome_of_step h
  cases hcycle with
  | completes _ _ he =>
    obtain ⟨hdt, hst⟩ := he.timers_eq
    refine ⟨fun _ => ?_, fun hf => absurd (he.fault_eq.trans hs) hf⟩
    rw [tick_dt, tick_st, toNat_tickTimer, toNat_tickTimer, hdt, hst]
    exact ⟨rfl, rfl⟩
  | fetchRaises _ => exact ⟨nofun, fun _ => ⟨rfl, rfl⟩⟩
  | decodeRaises _ _ => exact ⟨nofun, fun _ => ⟨rfl, rfl⟩⟩
  | execRaises _ _ _ => exact ⟨nofun, fun _ => ⟨rfl, rfl⟩⟩

/-- A run that ends with no fault latched started with none: a latched record stops the run (D6). -/
theorem fault_none_of_run {k : Nat} {s t : State} (h : Host.Core.run Sys2Proof.core k s = .next t) (ht : t.fault = none) :
    s.fault = none := by
  cases k with
  | zero =>
    obtain rfl := Host.Outcome.next.inj h
    exact ht
  | succ k =>
    obtain ⟨u, hu, -⟩ := run_succ_next h
    exact (step_next hu).1

/-- Settles O13, by induction on the number of cycles: each one completes, since the run goes on after it. -/
theorem timersCountCompletedCycles : Obligations.TimersCountCompletedCycles := by
  intro k
  induction k with
  | zero =>
    intro s t h _
    obtain rfl := Host.Outcome.next.inj h
    exact ⟨rfl, rfl⟩
  | succ k ih =>
    intro s t h ht
    obtain ⟨u, hu, hrun⟩ := run_succ_next h
    obtain ⟨hdt, hst⟩ := (everyCompletedCycleTicksOnce s u hu).1 (fault_none_of_run hrun ht)
    obtain ⟨hdt', hst'⟩ := ih u t hrun ht
    omega

end Sys2Proof.Machine
end

section
/-! SUPPORT. The invariant of a run (10_state.md R24): at reset, at launch, and kept by every step, clause by clause over the effects
of an instruction and the ways of a cycle. -/

namespace Sys2Proof.Machine

/-! ### Reset and launch -/

/-- Settles O16, clause by clause: `sp` is 0, so no entry is in use, and no record is latched. -/
theorem invariantHoldsAtReset : Obligations.InvariantHoldsAtReset where
  memory := reset_mem_wf
  index := by decide
  pc := by decide
  stack := fun _ hk => absurd hk (Nat.not_lt_zero _)
  timers := rfl
  record := nofun

/-- Settles O17: loading writes memory alone and keeps its canonical form; the other clauses are those of reset. -/
theorem invariantHoldsAtLaunch : Obligations.InvariantHoldsAtLaunch := by
  intro image s h
  have hmem : Memory.wf s.mem = true := load_keeps_wf reset_mem_wf h
  obtain ⟨-, e⟩ | ⟨-, e⟩ := load_cases image State.reset
  · obtain rfl : _ = s := Except.ok.inj (e.symm.trans h)
    exact { invariantHoldsAtReset with memory := hmem, record := nofun }
  · cases e.symm.trans h

/-! ### What an instruction keeps of the invariant -/

/-- R24 item (c): every entry in use is a return address. -/
def UsedEntriesOk (s : State) : Prop := ∀ k : Fin 16, k.val < s.sp.val → returnAddrOk s.stack[k.val] = true

/-- The advanced `pc` is what `call` pushes. -/
theorem returnAddrOk_advance {s : State} (h : fetchOk s.pc = true) : returnAddrOk (advance s).pc = true := by
  obtain ⟨heven, hlo, hhi⟩ := (fetchOk_iff s.pc).1 h
  simp only [returnAddrOk, toNat_advance h, Bool.and_eq_true, decide_eq_true_eq]
  omega

theorem toNat_le_of_returnAddrOk {w : Word} (h : returnAddrOk w = true) : w.toNat ≤ 0x1000 := by
  simp only [returnAddrOk, Bool.and_eq_true, decide_eq_true_eq] at h
  exact h.2

theorem Effect.index_le {s t : State} {i : Instr} (h : Effect s i t) (hs : s.index.toNat ≤ 0x0FFF) :
    t.index.toNat ≤ 0x0FFF := by
  cases h with
  | setsIndex nnn => exact toNat_addrOf_le nnn
  | _ => exact hs

/-- Entered with `pc` past a fetched word, an instruction leaves `pc` at most 0x10FE (R13): a popped address is in use. -/
theorem Effect.pc_le {s t : State} {i : Instr} (h : Effect s i t) (hpc : s.pc.toNat ≤ 0x1000) (hs : UsedEntriesOk s) :
    t.pc.toNat ≤ 0x10FE := by
  have hstay : s.pc.toNat ≤ 0x10FE := hpc.trans (by decide)
  cases h with
  | skips taken _ =>
    cases taken with
    | false => exact hstay
    | true =>
      show (s.pc + 2#16).toNat ≤ 0x10FE
      have htwo : (2#16).toNat = 2 := rfl
      rw [BitVec.toNat_add, htwo]
      omega
  | jumps a ha _ => exact ha
  | pushes nnn _ => exact (toNat_addrOf_le nnn).trans (by decide)
  | pops hsp hk =>
    have hlt : s.sp.val - 1 < s.sp.val := by
      have : s.sp.val ≠ 0 := fun e => hsp (Fin.ext e)
      omega
    exact (toNat_le_of_returnAddrOk (hs ⟨s.sp.val - 1, hk⟩ hlt)).trans (by decide)
  | _ => exact hstay

/-- A push adds the entry `pc`; a pop only shortens the part in use. -/
theorem Effect.usedEntriesOk {s t : State} {i : Instr} (h : Effect s i t) (hpc : returnAddrOk s.pc = true)
    (hs : UsedEntriesOk s) : UsedEntriesOk t := by
  cases h with
  | pushes nnn hroom =>
    intro k hk
    have hk' : k.val < s.sp.val + 1 := val_spUp hroom ▸ hk
    show returnAddrOk (s.stack.set s.sp.val s.pc hroom)[k.val] = true
    rw [Vector.getElem_set]
    split
    · exact hpc
    · exact hs k (by omega)
  | pops _ _ =>
    intro k hk
    have hk' : k.val < s.sp.val - 1 := val_spDown s.sp ▸ hk
    exact hs k (by omega)
  | _ => exact hs

/-! ### What a cycle keeps of the invariant -/

/-- Latching a record that explains itself keeps the invariant. -/
theorem inv_latch {s : State} {pc : Word} {r : FaultRecord} (hs : Inv s) (hpc : pc.toNat ≤ 0x10FE)
    (hr : RecordExplains { s with pc := pc, fault := some r } r) : Inv { s with pc := pc, fault := some r } where
  memory := hs.memory
  index := hs.index
  pc := hpc
  stack := hs.stack
  timers := hs.timers
  record := fun _ h => Option.some.inj h ▸ hr

/-- A failed check still fails where its record stands: it reads nothing that latching writes. -/
theorem recordExplains_of_failedCheck {s : State} {c : FaultCode} {i : Instr} (hpc : fetchOk s.pc = true)
    (hd : decodeWord (fetchWord s) = .ok i) (hc : FailedCheck (advance s) c i) :
    RecordExplains { s with pc := s.pc + 2#16, fault := some ⟨c, s.pc, fetchWord s⟩ } ⟨c, s.pc, fetchWord s⟩ := by
  refine .inr ⟨hpc, rfl, rfl, ?_⟩
  cases hc with
  | stackFull nnn hfull =>
    have hsp : s.sp = 16 := by
      have : ¬ s.sp.val < 16 := hfull
      have := s.sp.isLt
      exact Fin.ext (by show s.sp.val = 16; omega)
    exact .inr (.inl ⟨rfl, hsp, nnn, hd⟩)
  | stackEmpty hempty => exact .inr (.inr (.inl ⟨rfl, hempty, (encode_of_decodeWord hd).symm⟩))
  | spriteOutside x y n hout =>
    obtain ⟨hn, hlast⟩ := (spriteOutside_iff _ _).1 hout
    exact .inr (.inr (.inr ⟨rfl, x, y, n, hd, hn, hlast⟩))

/-- A completed cycle keeps the invariant: the instruction keeps each clause and both timers tick alike. -/
theorem Effect.inv_tick {s u : State} {i : Instr} (hs : Inv s) (hf : s.fault = none) (hpc : fetchOk s.pc = true)
    (he : Effect (advance s) i u) : Inv (tick u) := by
  have hret : returnAddrOk (advance s).pc = true := returnAddrOk_advance hpc
  obtain ⟨hdt, hst⟩ := he.timers_eq
  exact {
    memory := he.mem_eq ▸ hs.memory
    index := he.index_le hs.index
    pc := he.pc_le (toNat_le_of_returnAddrOk hret) hs.stack
    stack := he.usedEntriesOk hret hs.stack
    timers := congrArg tickTimer (hdt.trans (hs.timers.trans hst.symm))
    record := fun r hr => by cases (he.fault_eq.trans hf).symm.trans hr }

/-- Settles O15, by the four ways a cycle goes: the three that raise latch a record that explains itself, the fourth is a
completed cycle. -/
theorem invariantKeptByStep : Obligations.InvariantKeptByStep := by
  intro s t hs h
  obtain ⟨hf, hcycle⟩ := cycleOutcome_of_step h
  have hadv : fetchOk s.pc = true → (s.pc + 2#16).toNat ≤ 0x10FE := fun hpc =>
    (toNat_le_of_returnAddrOk (returnAddrOk_advance hpc)).trans (by decide)
  cases hcycle with
  | fetchRaises hpc => exact inv_latch hs hs.pc (.inl ⟨rfl, rfl, rfl, hpc⟩)
  | decodeRaises hpc hd =>
    exact inv_latch hs (hadv hpc) (.inr ⟨hpc, rfl, rfl, .inl ⟨rfl, wordWellFormed_of_decodeWord_error hd⟩⟩)
  | execRaises hpc hd hc => exact inv_latch hs (hadv hpc) (recordExplains_of_failedCheck hpc hd hc)
  | completes hpc _ he => exact he.inv_tick hs hf hpc

end Sys2Proof.Machine
end

section
/-! SUPPORT. Memory (20_memory.md): no cycle writes it (R34, R38), the fetch is big-endian (R35), and the two accesses that are
refused, a fetch outside the program (R36) and a sprite outside memory (R37). -/

namespace Sys2Proof.Machine

/-! ### No cycle writes memory (R34, R38) -/

/-- Settles O14, by the four ways a cycle goes: a raised record is no part of memory, and no effect of an instruction is. -/
theorem memoryIsConstantUnderStep : Obligations.MemoryIsConstantUnderStep := by
  intro s t h
  obtain ⟨-, hcycle⟩ := cycleOutcome_of_step h
  cases hcycle with
  | completes _ _ he => exact he.mem_eq
  | fetchRaises _ => rfl
  | decodeRaises _ _ => rfl
  | execRaises _ _ _ => rfl

/-! ### The fetch is big-endian (R35) -/

/-- The nibbles of a word of two bytes: `n0`, `n1` are those of the first byte, `n2`, `n3` those of the second (R51). -/
theorem toNat_nibbles_wordOfBytes (hi lo : Byte) :
    (nibble0 (wordOfBytes hi lo)).toNat = hi.toNat / 16 ∧ (nibble1 (wordOfBytes hi lo)).toNat = hi.toNat % 16 ∧
    (nibble2 (wordOfBytes hi lo)).toNat = lo.toNat / 16 ∧ (nibble3 (wordOfBytes hi lo)).toNat = lo.toNat % 16 := by
  have hlo : lo.toNat < 256 := lo.isLt
  rw [toNat_nibble0, toNat_nibble1, toNat_nibble2, toNat_nibble3, toNat_wordOfBytes]
  omega

/-- A byte of memory after `Load`: the image from 0x200 upward, every other byte as before (R131). -/
theorem readByte_of_load {image : List Byte} {s t : State} (hs : Memory.wf s.mem = true) (h : load image s = .ok t) (a : Nat) :
    t.readByte a = if 0x200 ≤ a then (image[a - 0x200]?).getD (s.readByte a) else s.readByte a := by
  obtain ⟨hlen, e⟩ | ⟨-, e⟩ := load_cases image s
  · obtain rfl : _ = t := Except.ok.inj (e.symm.trans h)
    have hfits : 0x200 + image.length ≤ Config.memSize := by
      show _ ≤ 4096
      omega
    exact Memory.read_writeBytes 0x200 a image hfits hs
  · cases e.symm.trans h

/-- `Load` leaves `pc` where it is (R131). -/
theorem pc_of_load {image : List Byte} {s t : State} (h : load image s = .ok t) : t.pc = s.pc := by
  obtain ⟨-, e⟩ | ⟨-, e⟩ := load_cases image s
  · obtain rfl : _ = t := Except.ok.inj (e.symm.trans h)
    rfl
  · cases e.symm.trans h

/-- The first word fetched after a launch is made of the first two bytes of the image (R132). -/
theorem fetchWord_of_launch {b0 b1 : Byte} {rest : List Byte} {s : State} (h : launch (b0 :: b1 :: rest) = .ok s) :
    fetchWord s = wordOfBytes b0 b1 := by
  have hpc : s.pc.toNat = 0x200 := congrArg BitVec.toNat (pc_of_load h)
  have h0 : s.readByte 0x200 = b0 := readByte_of_load reset_mem_wf h 0x200
  have h1 : s.readByte (0x200 + 1) = b1 := readByte_of_load reset_mem_wf h 0x201
  rw [fetchWord, hpc, State.readWord, h0, h1]

/-- Settles O22: the fetched word is the two bytes at `pc`, and after a launch these are the image's first two. -/
theorem fetchIsBigEndian : Obligations.FetchIsBigEndian := by
  refine ⟨fun s => ⟨toNat_wordOfBytes _ _, toNat_nibbles_wordOfBytes _ _⟩, fun b0 b1 rest s h => ?_⟩
  rw [fetchWord_of_launch h, toNat_wordOfBytes]

/-! ### A fetch outside the program (R36) -/

/-- The addresses an instruction cannot be fetched from, as numbers (R36). -/
theorem fetchOk_eq_false_iff (pc : Word) :
    fetchOk pc = false ↔ pc.toNat % 2 = 1 ∨ pc.toNat < 0x0200 ∨ pc.toNat > 0x0FFE := by
  rw [← Bool.not_eq_true, fetchOk_iff]
  omega

/-- Settles O9: the fetch check fails, and its record is all that changes. -/
theorem fetchOutsideProgramFaults : Obligations.FetchOutsideProgramFaults := by
  intro s hf hpc
  rw [step_of_fetch_outside hf ((fetchOk_eq_false_iff s.pc).2 hpc), raiseFetch_eq]

/-! ### A sprite outside memory (R37) -/

/-- A word of format R as a number: its fields at their places (R53). -/
theorem toNat_formatR (op f : Nibble) (x y : RegIdx) :
    (formatR op x y f).toNat = 4096 * op.toNat + 256 * x.val + 16 * y.val + f.toNat := by
  have hop := toNat_nibble0 (formatR op x y f)
  have hx := val_fieldX (formatR op x y f)
  have hy := val_fieldY (formatR op x y f)
  have hf := toNat_nibble3 (formatR op x y f)
  rw [nibble0_formatR] at hop
  rw [fieldX_formatR] at hx
  rw [fieldY_formatR] at hy
  rw [nibble3_formatR] at hf
  omega

/-- Settles O49: the range check fails, and its record, with the draw's own word, is all that changes. -/
theorem drawOutsideMemoryFaults : Obligations.DrawOutsideMemoryFaults := by
  intro x y n s hn hlast
  have hword : WordR (encode (.drawSprite x y n)) 0xD x y n := toNat_formatR 0xD#4 (BitVec.ofFin n) x y
  exact ⟨_, hword, execDrawSprite_of_outside x y ((spriteOutside_iff s n).2 ⟨hn, hlast⟩)⟩

end Sys2Proof.Machine
end

section
/-! SUPPORT. Encoding (30_encoding.md R50 to R57): decoding inverts `encode` on words and on bytes, and the decoder goes by the rows
of the opcode map. Two rows that select one word agree where both masks look, and the map has no two such rows; so the row that
bears an instruction's name is the only one that selects its word. -/

namespace Sys2Proof

/-! ### Decoding inverts `encode` (R50, R53) -/

/-- The decoder reads the fields of each format back (R53, R56). -/
theorem decodeWord_encode (i : Instr) : decodeWord (encode i) = .ok i := by
  cases i with
  | clear | ret => rfl
  | jump _ | call _ | loadIndex _ | jumpOffset _ =>
    simp only [encode, decodeWord, nibble0_formatA, fieldNNN_formatA]
  | skipEqImm _ _ | skipNeImm _ _ | loadImm _ _ | addImm _ _ | randomAnd _ _ =>
    simp only [encode, decodeWord, nibble0_formatI, fieldX_formatI, fieldKK_formatI]
  | skipEqReg _ _ | skipNeReg _ _ =>
    simp only [encode, decodeWord, decodePair, nibble0_formatR, nibble3_formatR, fieldX_formatR, fieldY_formatR, if_true]
  | drawSprite _ _ _ =>
    simp only [encode, formatS, decodeWord, nibble0_formatR, fieldX_formatR, fieldY_formatR, fieldN_formatR]
  | copy _ _ | orReg _ _ | andReg _ _ | xorReg _ _ | addCarry _ _ | subBorrow _ _ | shiftRight _ _ | subnBorrow _ _
  | shiftLeft _ _ =>
    simp only [encode, decodeWord, decodeAlu, nibble0_formatR, nibble3_formatR, fieldX_formatR, fieldY_formatR]

/-- The two bytes of a word make the word again (R35). -/
theorem wordOfBytes_bytes (w : Word) : wordOfBytes (w.extractLsb' 8 8) (w.extractLsb' 0 8) = w := by
  have hw : w.toNat < 65536 := w.isLt
  rw [← BitVec.toNat_inj, toNat_wordOfBytes, BitVec.extractLsb'_toNat, BitVec.extractLsb'_toNat,
    Nat.shiftRight_eq_div_pow, Nat.shiftRight_zero]
  omega

/-- Bytes decode as the word of the first two, and leave the rest (R50). -/
theorem decode_bytesOfWord_append (w : Word) (rest : List Byte) :
    decode (bytesOfWord w ++ rest) = (decodeWord w).map (fun i => (i, rest)) := by
  simp only [bytesOfWord, List.cons_append, List.nil_append, decode, wordOfBytes_bytes]

/-- Settles O1: every format gives its fields back, and the bytes of a word make the word again. -/
theorem decodeOfEncodeIsIdentity : Obligations.DecodeOfEncodeIsIdentity := by
  refine fun i => ⟨decodeWord_encode i, fun rest => ?_⟩
  rw [encodeBytes, decode_bytesOfWord_append, decodeWord_encode]
  rfl

/-- Settles O2: a word is rebuilt from the fields that the decoder reads, whatever its format. -/
theorem encodeOfDecodeIsIdentity : Obligations.EncodeOfDecodeIsIdentity :=
  fun _ _ h => encode_of_decodeWord h

/-! ### The rows of the opcode map (R55, R56) -/

/-- Rows that select one word have values that agree where both masks look. -/
theorem values_agree_of_selects {a b : OpRow} {w : Word} (ha : a.selects w = true) (hb : b.selects w = true) :
    a.value &&& b.mask = b.value &&& a.mask := by
  have ha' : w &&& a.mask = a.value := beq_iff_eq.1 ha
  have hb' : w &&& b.mask = b.value := beq_iff_eq.1 hb
  rw [← ha', ← hb', BitVec.and_assoc, BitVec.and_assoc, BitVec.and_comm a.mask]

/-- No two rows of the map agree where both masks look. -/
theorem eq_of_values_agree : ∀ a ∈ opRows, ∀ b ∈ opRows, a.value &&& b.mask = b.value &&& a.mask → a = b := by
  decide

/-- No word is selected by two rows (R56). -/
theorem eq_of_selects {a b : OpRow} {w : Word} (ha : a ∈ opRows) (hb : b ∈ opRows) (hwa : a.selects w = true)
    (hwb : b.selects w = true) : a = b :=
  eq_of_values_agree a ha b hb (values_agree_of_selects hwa hwb)

/-- No two rows bear one name. -/
theorem eq_of_mnemonic_eq : ∀ a ∈ opRows, ∀ b ∈ opRows, a.mnemonic = b.mnemonic → a = b := by
  decide

/-- Settles O4: two rows of the map disagree where both masks look, so no word is selected by both. -/
theorem opcodeMapRowsAreDisjoint : Obligations.OpcodeMapRowsAreDisjoint :=
  ⟨rfl, fun _ _ _ ha hb hwa hwb => eq_of_selects ha hb hwa hwb⟩

/-! ### The decoder goes by the rows (R55, R57) -/

/-- The row that bears an instruction's name selects its word, for every instruction. -/
theorem tableRow_statement (i : Instr) : Laws.TableRow.Statement i := by
  cases i with
  | clear => exact Laws.TableRow.clear
  | ret => exact Laws.TableRow.ret
  | jump nnn => exact Laws.TableRow.jump nnn
  | call nnn => exact Laws.TableRow.call nnn
  | skipEqImm x kk => exact Laws.TableRow.skipEqImm x kk
  | skipNeImm x kk => exact Laws.TableRow.skipNeImm x kk
  | skipEqReg x y => exact Laws.TableRow.skipEqReg x y
  | loadImm x kk => exact Laws.TableRow.loadImm x kk
  | addImm x kk => exact Laws.TableRow.addImm x kk
  | copy x y => exact Laws.TableRow.copy x y
  | orReg x y => exact Laws.TableRow.orReg x y
  | andReg x y => exact Laws.TableRow.andReg x y
  | xorReg x y => exact Laws.TableRow.xorReg x y
  | addCarry x y => exact Laws.TableRow.addCarry x y
  | subBorrow x y => exact Laws.TableRow.subBorrow x y
  | shiftRight x y => exact Laws.TableRow.shiftRight x y
  | subnBorrow x y => exact Laws.TableRow.subnBorrow x y
  | shiftLeft x y => exact Laws.TableRow.shiftLeft x y
  | skipNeReg x y => exact Laws.TableRow.skipNeReg x y
  | loadIndex nnn => exact Laws.TableRow.loadIndex nnn
  | jumpOffset nnn => exact Laws.TableRow.jumpOffset nnn
  | randomAnd x kk => exact Laws.TableRow.randomAnd x kk
  | drawSprite x y n => exact Laws.TableRow.drawSprite x y n

/-- A word that decodes is selected by the row of the instruction's name. -/
theorem row_selects_of_decodeWord {w : Word} {i : Instr} (h : decodeWord w = .ok i) :
    ∃ row ∈ opRows, row.mnemonic = i.mnemonic ∧ row.selects w = true := by
  obtain ⟨row, hrow, hname, hsel⟩ := tableRow_statement i
  exact ⟨row, hrow, hname, encode_of_decodeWord h ▸ hsel⟩

/-- A word is well formed exactly when it decodes (R55, R57). -/
theorem wordWellFormed_iff_decodes (w : Word) : wordWellFormed w = true ↔ ∃ i, decodeWord w = .ok i := by
  constructor
  · intro hw
    cases hd : decodeWord w with
    | ok i => exact ⟨i, rfl⟩
    | error e => exact absurd (wordWellFormed_of_decodeWord_error hd) (by simp [hw])
  · rintro ⟨i, hi⟩
    obtain ⟨row, hrow, -, hsel⟩ := row_selects_of_decodeWord hi
    exact List.any_eq_true.2 ⟨row, hrow, hsel⟩

/-- A row selects the words that decode to an instruction of its name, and no others (R55). -/
theorem selects_iff_decodes {row : OpRow} (hrow : row ∈ opRows) (w : Word) :
    row.selects w = true ↔ ∃ i, decodeWord w = .ok i ∧ i.mnemonic = row.mnemonic := by
  constructor
  · intro hsel
    obtain ⟨i, hi⟩ := (wordWellFormed_iff_decodes w).1 (List.any_eq_true.2 ⟨row, hrow, hsel⟩)
    obtain ⟨own, hown, hname, hsel'⟩ := row_selects_of_decodeWord hi
    obtain rfl : own = row := eq_of_selects hown hrow hsel' hsel
    exact ⟨i, hi, hname.symm⟩
  · rintro ⟨i, hi, hname⟩
    obtain ⟨own, hown, hname', hsel⟩ := row_selects_of_decodeWord hi
    obtain rfl : own = row := eq_of_mnemonic_eq own hown row hrow (hname'.trans hname)
    exact hsel

/-- A word that no row selects is refused by its one name, and only such a word is refused (R57). -/
theorem wordWellFormed_eq_false_iff (w : Word) :
    wordWellFormed w = false ↔ decodeWord w = .error (.invalidOpcode w) := by
  constructor
  · intro hw
    cases hd : decodeWord w with
    | ok i => exact absurd ((wordWellFormed_iff_decodes w).2 ⟨i, hd⟩) (by simp [hw])
    | error e => rw [decodeWord_error hd]
  · exact wordWellFormed_of_decodeWord_error

/-- Settles O3: a word's decoding and the one row that selects it bear one name; a word without a row is refused. -/
theorem decoderFollowsOpcodeMap : Obligations.DecoderFollowsOpcodeMap :=
  ⟨fun _ hrow w => selects_iff_decodes hrow w, wordWellFormed_eq_false_iff⟩

/-- Settles O10: the fetch check passes and the decoder refuses the word, so its record is latched and nothing is executed. -/
theorem invalidWordFaultsUnexecuted : Obligations.InvalidWordFaultsUnexecuted := by
  intro s hf heven hlo hhi hw
  have hd : decodeWord (Machine.fetchWord s) = .error (.invalidOpcode (Machine.fetchWord s)) :=
    (wordWellFormed_eq_false_iff _).1 hw
  rw [Machine.step_of_invalid hf ((Machine.fetchOk_iff s.pc).2 ⟨heven, hlo, hhi⟩) hd, Machine.raiseInvalid_advance]
  rfl

/-! ### Words spelled out, and the fields as numbers (R51, R52, R60) -/

/-- Settles O5, by running the decoder on the nine words. -/
theorem writtenOutWordsDecode : Obligations.WrittenOutWordsDecode := by
  unfold Obligations.WrittenOutWordsDecode
  decide

/-- Settles O6: each field is a run of whole nibbles, read as a number. -/
theorem fieldsAreTheirBits : Obligations.FieldsAreTheirBits :=
  fun w => ⟨val_fieldX w, val_fieldY w, val_fieldN w, toNat_fieldKK w, toNat_fieldNNN w⟩

end Sys2Proof
end

section
/-! SUPPORT. Control transfer (40_flow.md R70 to R74): what decodes to a jump, a call or a jump with an offset, where each goes and
what it leaves unchanged, `call` and `return` against each other, and the self-jump as the end of a run (R136). -/

namespace Sys2Proof.Machine

/-! ### Words of format A (R53) -/

/-- A word of format A as a number: its fields at their places. -/
theorem toNat_formatA (op : Nibble) (nnn : Imm12) : (formatA op nnn).toNat = 4096 * op.toNat + nnn.toNat := by
  have hop := toNat_nibble0 (formatA op nnn)
  have hnnn := toNat_fieldNNN (formatA op nnn)
  rw [nibble0_formatA] at hop
  rw [fieldNNN_formatA] at hnnn
  omega

/-- The word of an instruction of format A is the only one with its fields, so a word with these fields decodes to it. -/
theorem decodeWord_of_wordA {i : Instr} {op : Nibble} {nnn : Imm12} {w : Word} (hi : encode i = formatA op nnn)
    (hw : WordA w op.toNat nnn) : decodeWord w = .ok i := by
  have hword : w = encode i := BitVec.eq_of_toNat_eq (hw.trans (hi ▸ toNat_formatA op nnn).symm)
  rw [hword, decodeWord_encode]

/-! ### The frames of a transfer -/

theorem keepsRest_of_eq {s t : State} (hmem : t.mem = s.mem) (hdt : t.dt = s.dt) (hst : t.st = s.st)
    (hfault : t.fault = s.fault) (hdraws : t.draws = s.draws) : KeepsRest s t :=
  ⟨fun a => congrArg (Memory.read · a) hmem, ⟨hdt, hst⟩, hfault, hdraws⟩

theorem onlyPc_withPc (s : State) (a : Word) : OnlyPc s { s with pc := a } :=
  ⟨fun _ => rfl, rfl, ⟨rfl, fun _ => rfl⟩, fun _ _ => rfl, keepsRest_of_eq rfl rfl rfl rfl rfl⟩

theorem onlyPcAndStack_withPcAndStack (s : State) (stack : Vector Word 16) (sp : Fin 17) (a : Word) :
    OnlyPcAndStack s { s with stack := stack, sp := sp, pc := a } :=
  ⟨fun _ => rfl, rfl, fun _ _ => rfl, keepsRest_of_eq rfl rfl rfl rfl rfl⟩

/-! ### The jumps (R72, R74) -/

theorem exec_jump (nnn : Imm12) (s : State) : exec (.jump nnn) s = .next { s with pc := addrOf nnn } := rfl

theorem exec_jumpOffset (nnn : Imm12) (s : State) :
    exec (.jumpOffset nnn) s = .next { s with pc := addrOf nnn + wordOf (s.reg 0) } := rfl

/-- The target of `jump-offset` as a number: the sum of a 12-bit address and a byte does not wrap at 16 bits (D22). -/
theorem toNat_jumpOffset (nnn : Imm12) (b : Byte) : (addrOf nnn + wordOf b).toNat = nnn.toNat + b.toNat := by
  have := nnn.isLt
  have := b.isLt
  rw [BitVec.toNat_add, toNat_addrOf, toNat_wordOf]
  omega

/-- Settles O23: the jump writes its zero-extended address into `pc` and nothing else. -/
theorem jumpGoesToAddress : Obligations.JumpGoesToAddress := fun nnn s =>
  ⟨fun _ hw => decodeWord_of_wordA (op := 0x1#4) rfl hw, _, exec_jump nnn s, toNat_addrOf nnn, onlyPc_withPc s _⟩

/-- Settles O29: the sum does not wrap, so it is the sum of the numbers. -/
theorem jumpOffsetAddsRegisterZero : Obligations.JumpOffsetAddsRegisterZero := fun nnn s =>
  ⟨fun _ hw => decodeWord_of_wordA (op := 0xB#4) rfl hw, _, exec_jumpOffset nnn s, toNat_jumpOffset nnn _, onlyPc_withPc s _⟩

/-! ### The call and the return (R71, R73) -/

/-- Settles O24: with room, the call writes the one entry at `sp`, and `sp` and `pc`. -/
theorem callPushesReturnAddress : Obligations.CallPushesReturnAddress := by
  refine fun nnn s => ⟨fun _ hw => decodeWord_of_wordA (op := 0x2#4) rfl hw, fun hroom => ?_⟩
  exact ⟨_, execCall_of_room nnn hroom, Vector.getElem?_set_self hroom,
    fun k hk => Vector.getElem_set_ne hroom k.isLt (Ne.symm hk), val_spUp hroom, toNat_addrOf nnn,
    onlyPcAndStack_withPcAndStack s _ _ _⟩

/-- Settles O25: no room, and the record of the failed check, with the call's own word, is all that changes. -/
theorem callOnFullStackFaults : Obligations.CallOnFullStackFaults := by
  intro nnn s hsp
  have hfull : ¬ s.sp.val < 16 := by
    rw [hsp]
    decide
  exact ⟨encode (.call nnn), toNat_formatA 0x2#4 nnn, execCall_of_full nnn hfull⟩

/-- Settles O26: with an entry in use, the return reads the entry below `sp` and writes only `sp` and `pc`. -/
theorem returnPopsAddress : Obligations.ReturnPopsAddress := by
  refine ⟨decodeWord_encode .ret, fun s hsp => ?_⟩
  have hpos : 0 < s.sp.val := Nat.pos_of_ne_zero fun h => hsp (Fin.ext h)
  have hentry : s.sp.val - 1 < 16 := by omega
  have hdown : (spDown s.sp).val = s.sp.val - 1 := val_spDown s.sp
  refine ⟨_, execRet_of_entry hsp hentry, ?_, ?_, fun _ => rfl, onlyPcAndStack_withPcAndStack s _ _ _⟩
  · show (spDown s.sp).val + 1 = s.sp.val
    omega
  · show s.stack[(spDown s.sp).val]? = some s.stack[s.sp.val - 1]
    rw [hdown, Vector.getElem?_eq_getElem hentry]

/-- Settles O27: the stack is empty, and the record of the failed check is all that changes. -/
theorem returnOnEmptyStackFaults : Obligations.ReturnOnEmptyStackFaults :=
  fun _ hsp => execRet_of_empty hsp

theorem spUp_ne_zero {sp : Fin 17} (h : sp.val < 16) : spUp sp ≠ 0 := fun e => by
  have := (val_spUp h).symm.trans (congrArg Fin.val e)
  exact Nat.succ_ne_zero _ this

theorem spDown_spUp {sp : Fin 17} (h : sp.val < 16) : spDown (spUp sp) = sp := by
  apply Fin.ext
  rw [val_spDown, val_spUp h, Nat.add_sub_cancel]

/-- Settles O28: the return finds `sp` one above the entry that the call wrote, so it pops that entry. -/
theorem callThenReturnRoundTrip : Obligations.CallThenReturnRoundTrip := by
  intro nnn s t u hroom hcall hstack hsp
  obtain rfl := Host.Outcome.next.inj ((execCall_of_room nnn hroom).symm.trans hcall)
  have hstack' : u.stack = s.stack.set s.sp.val s.pc hroom := hstack
  have hsp' : u.sp = spUp s.sp := hsp
  have htop : u.sp.val - 1 = s.sp.val := by rw [hsp', val_spUp hroom, Nat.add_sub_cancel]
  have hne : u.sp ≠ 0 := hsp' ▸ spUp_ne_zero hroom
  refine ⟨_, execRet_of_entry hne (htop ▸ hroom), ?_, ?_⟩
  · show u.stack[u.sp.val - 1] = s.pc
    simp only [htop, hstack', Vector.getElem_set_self]
  · show spDown u.sp = s.sp
    rw [hsp', spDown_spUp hroom]

/-! ### The self-jump (R136) -/

/-- A cycle at a self-jump does nothing but tick: the jump undoes the advance. -/
theorem step_of_selfJump {s : State} (h : SelfJump s) : step s = .next (tick s) := by
  obtain ⟨hfault, hpc, nnn, hdecode, htarget⟩ := h
  have hjump : exec (.jump nnn) (advance s) = .next s := by
    rw [exec_jump, htarget]
    rfl
  rw [step_of_decoded hfault hpc hdecode, hjump, endCycle_of_next, if_pos hfault]

/-- A tick touches nothing that the fetch reads, so the state is at the same self-jump after it. -/
theorem selfJump_tick {s : State} (h : SelfJump s) : SelfJump (tick s) := h

/-- Settles O57, by induction on the number of cycles: each is a tick, and the state stays at the self-jump. -/
theorem selfJumpRunsForEver : Obligations.SelfJumpRunsForEver := by
  intro k
  induction k with
  | zero => exact fun s _ => ⟨s, rfl, rfl, rfl, rfl⟩
  | succ k ih =>
    intro s h
    obtain ⟨t, hrun, hframe, hdt, hst⟩ := ih (tick s) (selfJump_tick h)
    rw [tick_dt, toNat_tickTimer] at hdt
    rw [tick_st, toNat_tickTimer] at hst
    exact ⟨t, (run_succ_of_next k (step_of_selfJump h)).trans hrun, hframe, by omega, by omega⟩

end Sys2Proof.Machine
end

section
/-! SUPPORT. The conditional skips (41_skip.md R75 to R79): the words of formats I and R decode by their fields, a skip moves `pc`
by 2 exactly when its condition holds, and nothing else changes. -/

namespace Sys2Proof.Machine

/-! ### Words of formats I and R (R53) -/

/-- A word of format I as a number: its fields at their places. -/
theorem toNat_formatI (op : Nibble) (x : RegIdx) (kk : Byte) :
    (formatI op x kk).toNat = 4096 * op.toNat + 256 * x.val + kk.toNat := by
  have hop := toNat_nibble0 (formatI op x kk)
  have hx := val_fieldX (formatI op x kk)
  have hkk := toNat_fieldKK (formatI op x kk)
  rw [nibble0_formatI] at hop
  rw [fieldX_formatI] at hx
  rw [fieldKK_formatI] at hkk
  omega

/-- The word of an instruction of format I is the only one with its fields, so a word with these fields decodes to it. -/
theorem decodeWord_of_wordI {i : Instr} {op : Nibble} {x : RegIdx} {kk : Byte} {w : Word} (hi : encode i = formatI op x kk)
    (hw : WordI w op.toNat x kk) : decodeWord w = .ok i := by
  have hword : w = encode i := BitVec.eq_of_toNat_eq (hw.trans (hi ▸ toNat_formatI op x kk).symm)
  rw [hword, decodeWord_encode]

/-- The fields of a word of format R make the word. -/
theorem eq_formatR_of_wordR {op f : Nibble} {x y : RegIdx} {w : Word} (hw : WordR w op.toNat x y f.toFin) :
    w = formatR op x y f :=
  BitVec.eq_of_toNat_eq (hw.trans (toNat_formatR op f x y).symm)

/-- A word with the fields of an instruction of format R decodes to it. -/
theorem decodeWord_of_wordR {i : Instr} {op f : Nibble} {x y : RegIdx} {w : Word} (hi : encode i = formatR op x y f)
    (hw : WordR w op.toNat x y f.toFin) : decodeWord w = .ok i := by
  rw [eq_formatR_of_wordR hw, ← hi, decodeWord_encode]

/-- First nibbles 5 and 9 name an instruction only with a last nibble of 0 (R56, R57). -/
theorem decodeWord_of_pair_last_nibble {op : Nibble} {x y : RegIdx} {f : Fin 16} {w : Word} (hop : op = 0x5#4 ∨ op = 0x9#4)
    (hf : f ≠ 0) (hw : WordR w op.toNat x y f) : decodeWord w = .error (.invalidOpcode w) := by
  obtain rfl : w = formatR op x y (BitVec.ofFin f) := eq_formatR_of_wordR hw
  have hlast : ¬ nibble3 (formatR op x y (BitVec.ofFin f)) = 0x0#4 := by
    rw [nibble3_formatR]
    exact fun h => hf (congrArg BitVec.toFin h)
  rcases hop with rfl | rfl <;> simp only [decodeWord, nibble0_formatR, decodePair, if_neg hlast]

/-! ### What a skip does (R75) -/

theorem pc_skipWhen_of_true {b : Bool} (h : b = true) (s : State) : (skipWhen b s).pc = s.pc + 2#16 := by
  rw [h, skipWhen_eq, if_pos rfl]

theorem pc_skipWhen_of_false {b : Bool} (h : b = false) (s : State) : (skipWhen b s).pc = s.pc := by
  rw [h, skipWhen_eq, if_neg Bool.false_ne_true]

/-- Whether a skip was taken shows in `pc`: an advance by 2 is no multiple of 2^16. -/
theorem pc_skipWhen_eq_iff (b : Bool) (s : State) : (skipWhen b s).pc = s.pc + 2#16 ↔ b = true := by
  refine ⟨fun hpc => ?_, fun h => pc_skipWhen_of_true h s⟩
  by_contra h
  rw [pc_skipWhen_of_false (Bool.eq_false_of_not_eq_true h)] at hpc
  bv_omega

theorem onlyPc_skipWhen (b : Bool) (s : State) : OnlyPc s (skipWhen b s) :=
  skipWhen_eq b s ▸ onlyPc_withPc s _

/-! ### The four skips (R76 to R79) -/

theorem exec_skipEqImm (x : RegIdx) (kk : Byte) (s : State) :
    exec (.skipEqImm x kk) s = .next (skipWhen (s.reg x == kk) s) := rfl

theorem exec_skipNeImm (x : RegIdx) (kk : Byte) (s : State) :
    exec (.skipNeImm x kk) s = .next (skipWhen (s.reg x != kk) s) := rfl

theorem exec_skipEqReg (x y : RegIdx) (s : State) :
    exec (.skipEqReg x y) s = .next (skipWhen (s.reg x == s.reg y) s) := rfl

theorem exec_skipNeReg (x y : RegIdx) (s : State) :
    exec (.skipNeReg x y) s = .next (skipWhen (s.reg x != s.reg y) s) := rfl

/-- Settles O30: the skip's condition is the equality of the register and the immediate. -/
theorem skipIfEqualImmediate : Obligations.SkipIfEqualImmediate := fun x kk s =>
  ⟨fun _ hw => decodeWord_of_wordI (op := 0x3#4) rfl hw, _, exec_skipEqImm x kk s,
    fun heq => pc_skipWhen_of_true (beq_iff_eq.2 heq) s, fun hne => pc_skipWhen_of_false (beq_eq_false_iff_ne.2 hne) s,
    onlyPc_skipWhen _ s⟩

/-- Settles O31: the skip's condition is the negation of the other skip's, and `pc` shows which of the two was taken. -/
theorem skipIfNotEqualImmediate : Obligations.SkipIfNotEqualImmediate := by
  refine fun x kk s => ⟨fun _ hw => decodeWord_of_wordI (op := 0x4#4) rfl hw, _, exec_skipNeImm x kk s,
    fun hne => pc_skipWhen_of_true (bne_iff_ne.2 hne) s, fun heq => pc_skipWhen_of_false (bne_eq_false_iff_eq.2 heq) s,
    onlyPc_skipWhen _ s, _, exec_skipEqImm x kk s, ?_⟩
  rw [Ne, pc_skipWhen_eq_iff, pc_skipWhen_eq_iff, bne_iff_ne, beq_iff_eq]

/-- Settles O32: the skip's condition is the equality of the two registers, which one register named twice meets. -/
theorem skipIfRegistersEqual : Obligations.SkipIfRegistersEqual := by
  intro x y s
  have htaken : s.reg x = s.reg y → (skipWhen (s.reg x == s.reg y) s).pc = s.pc + 2#16 :=
    fun heq => pc_skipWhen_of_true (beq_iff_eq.2 heq) s
  exact ⟨fun _ hw => decodeWord_of_wordR (op := 0x5#4) (f := 0x0#4) rfl hw,
    fun _ _ hf hw => decodeWord_of_pair_last_nibble (.inl rfl) hf hw, _, exec_skipEqReg x y s,
    htaken, fun hne => pc_skipWhen_of_false (beq_eq_false_iff_ne.2 hne) s,
    fun hxy => htaken (congrArg s.reg hxy), onlyPc_skipWhen _ s⟩

/-- Settles O33: the skip's condition is that the two registers differ, which one register named twice never meets. -/
theorem skipIfRegistersNotEqual : Obligations.SkipIfRegistersNotEqual := by
  intro x y s
  have hnot : s.reg x = s.reg y → (skipWhen (s.reg x != s.reg y) s).pc = s.pc :=
    fun heq => pc_skipWhen_of_false (bne_eq_false_iff_eq.2 heq) s
  exact ⟨fun _ hw => decodeWord_of_wordR (op := 0x9#4) (f := 0x0#4) rfl hw,
    fun _ _ hf hw => decodeWord_of_pair_last_nibble (.inr rfl) hf hw, _, exec_skipNeReg x y s,
    fun hne => pc_skipWhen_of_true (bne_iff_ne.2 hne) s, hnot,
    fun hxy => hnot (congrArg s.reg hxy), onlyPc_skipWhen _ s⟩

end Sys2Proof.Machine
end

section
/-! SUPPORT. Register loads, arithmetic, logic, shifts and random (42_alu.md R80 to R93): the flags as facts about numbers, what
writing a result, or a result and a flag, leaves unchanged, and each instruction's result and flag. -/

namespace Sys2Proof.Machine

/-! ### The flags as facts about numbers (R87 to R91) -/

theorem carryOut_eq_true_iff {a b : Byte} : carryOut a b = true ↔ a.toNat + b.toNat > 255 := decide_eq_true_iff

theorem carryOut_eq_false_iff {a b : Byte} : carryOut a b = false ↔ a.toNat + b.toNat ≤ 255 :=
  decide_eq_false_iff_not.trans Nat.not_lt

theorem noBorrow_eq_true_iff {a b : Byte} : noBorrow a b = true ↔ a.toNat ≥ b.toNat := decide_eq_true_iff

theorem noBorrow_eq_false_iff {a b : Byte} : noBorrow a b = false ↔ a.toNat < b.toNat :=
  decide_eq_false_iff_not.trans Nat.not_le

theorem toNat_flagByte_decide (p : Prop) [Decidable p] : (flagByte (decide p)).toNat = if p then 1 else 0 := by
  split
  · next hp => rw [decide_eq_true hp, flagByte_true, BitVec.toNat_one (by decide)]
  · next hp => rw [decide_eq_false hp, flagByte_false, BitVec.toNat_zero]

/-- The bit that a right shift loses is the remainder. -/
theorem toNat_flagByte_lowBit (a : Byte) : (flagByte (lowBit a)).toNat = a.toNat % 2 := by
  rw [lowBit_eq, toNat_flagByte_decide]
  split <;> omega

/-- The bit that a left shift loses is the quotient by its weight. -/
theorem toNat_flagByte_highBit (a : Byte) : (flagByte (highBit a)).toNat = a.toNat / 128 := by
  have := a.isLt
  rw [highBit_eq, toNat_flagByte_decide]
  split <;> omega

/-! ### A left shift is an addition of the byte to itself (R91) -/

theorem shiftUp_eq_wrapAdd (a : Byte) : shiftUp a = wrapAdd a a := congrArg (BitVec.ofNat 8) (Nat.two_mul _)

theorem highBit_eq_carryOut (a : Byte) : highBit a = carryOut a a := by
  rw [highBit_eq, carryOut, decide_eq_decide]
  omega

/-! ### The frames of a result, and of a result with a flag (R80) -/

theorem onlyRegs_withRegs (s : State) (regs : Vector Byte 16) : OnlyRegs s { s with regs := regs } :=
  ⟨rfl, rfl, ⟨rfl, fun _ => rfl⟩, fun _ _ => rfl, keepsRest_of_eq rfl rfl rfl rfl rfl⟩

theorem onlyRegs_setReg (s : State) (x : RegIdx) (v : Byte) : OnlyRegs s (s.setReg x v) := onlyRegs_withRegs s _

theorem onlyRegs_setResultFlag (s : State) (x : RegIdx) (v : Byte) (f : Bool) : OnlyRegs s (s.setResultFlag x v f) :=
  onlyRegs_withRegs s _

theorem keepsRegsBut_setReg (s : State) (x : RegIdx) (v : Byte) : KeepsRegsBut (fun r => r = x) s (s.setReg x v) :=
  fun _ hr => State.reg_setReg_of_ne s v hr

theorem keepsRegsBut_setResultFlag (s : State) (x : RegIdx) (v : Byte) (f : Bool) :
    KeepsRegsBut (fun r => r = x ∨ r = 0xF) s (s.setResultFlag x v f) := by
  intro r hr
  obtain ⟨hdest, hflag⟩ := not_or.1 hr
  rw [State.reg_setResultFlag, if_neg hflag, if_neg hdest]

/-! ### What is read after a result with a flag (R80, D4) -/

/-- The result stays unless the flag, written last, falls on it. -/
theorem State.reg_setResultFlag_dest (s : State) {x : RegIdx} (hx : x ≠ 0xF) (v : Byte) (f : Bool) :
    (s.setResultFlag x v f).reg x = v := by
  rw [State.reg_setResultFlag, if_neg hx, if_pos rfl]

theorem State.flag_setResultFlag (s : State) (x : RegIdx) (v : Byte) (f : Bool) :
    (s.setResultFlag x v f).reg 0xF = flagByte f := by
  rw [State.reg_setResultFlag, if_pos rfl]

theorem State.flag_setResultFlag_of_true (s : State) (x : RegIdx) (v : Byte) {f : Bool} (hf : f = true) :
    (s.setResultFlag x v f).reg 0xF = 0x01#8 := by
  rw [State.flag_setResultFlag, hf, flagByte_true]

theorem State.flag_setResultFlag_of_false (s : State) (x : RegIdx) (v : Byte) {f : Bool} (hf : f = false) :
    (s.setResultFlag x v f).reg 0xF = 0x00#8 := by
  rw [State.flag_setResultFlag, hf, flagByte_false]

/-! ### Loads and copies (R81 to R83) -/

theorem exec_loadImm (x : RegIdx) (kk : Byte) (s : State) : exec (.loadImm x kk) s = .next (s.setReg x kk) := rfl

theorem exec_addImm (x : RegIdx) (kk : Byte) (s : State) :
    exec (.addImm x kk) s = .next (s.setReg x (wrapAdd (s.reg x) kk)) := rfl

theorem exec_copy (x y : RegIdx) (s : State) : exec (.copy x y) s = .next (s.setReg x (s.reg y)) := rfl

/-- Settles O34: the immediate is written into the one register, and a register written reads back. -/
theorem loadImmediateWritesByte : Obligations.LoadImmediateWritesByte := fun x kk s =>
  ⟨fun _ hw => decodeWord_of_wordI (op := 0x6#4) rfl hw, _, exec_loadImm x kk s, State.reg_setReg_same s x kk,
    keepsRegsBut_setReg s x kk, onlyRegs_setReg s x kk⟩

/-- Settles O35: the wrapped sum is written into the one register; no flag is written beside it. -/
theorem addImmediateWraps : Obligations.AddImmediateWraps := by
  refine fun x kk s => ⟨fun _ hw => decodeWord_of_wordI (op := 0x7#4) rfl hw, _, exec_addImm x kk s, ?_,
    keepsRegsBut_setReg s x _, onlyRegs_setReg s x _⟩
  rw [State.reg_setReg_same, toNat_wrapAdd]

/-- Settles O36: the value that `V[y]` has on entry is written into the one register. -/
theorem copyCopiesRegister : Obligations.CopyCopiesRegister := fun x y s =>
  ⟨fun _ hw => decodeWord_of_wordR (op := 0x8#4) (f := 0x0#4) rfl hw, _, exec_copy x y s, State.reg_setReg_same s x _,
    keepsRegsBut_setReg s x _, onlyRegs_setReg s x _⟩

/-! ### Bitwise logic (R84 to R86) -/

theorem exec_orReg (x y : RegIdx) (s : State) : exec (.orReg x y) s = .next (s.setReg x (s.reg x ||| s.reg y)) := rfl

theorem exec_andReg (x y : RegIdx) (s : State) : exec (.andReg x y) s = .next (s.setReg x (s.reg x &&& s.reg y)) := rfl

theorem exec_xorReg (x y : RegIdx) (s : State) : exec (.xorReg x y) s = .next (s.setReg x (s.reg x ^^^ s.reg y)) := rfl

/-- Settles O37: a bit of the value written is the or of the operands' bits. -/
theorem orIsBitwise : Obligations.OrIsBitwise := by
  refine fun x y s => ⟨fun _ hw => decodeWord_of_wordR (op := 0x8#4) (f := 0x1#4) rfl hw, _, exec_orReg x y s, ?_,
    keepsRegsBut_setReg s x _, onlyRegs_setReg s x _⟩
  intro b _
  rw [State.reg_setReg_same, BitVec.getLsbD_or]

/-- Settles O38: a bit of the value written is the and of the operands' bits. -/
theorem andIsBitwise : Obligations.AndIsBitwise := by
  refine fun x y s => ⟨fun _ hw => decodeWord_of_wordR (op := 0x8#4) (f := 0x2#4) rfl hw, _, exec_andReg x y s, ?_,
    keepsRegsBut_setReg s x _, onlyRegs_setReg s x _⟩
  intro b _
  rw [State.reg_setReg_same, BitVec.getLsbD_and]

/-- Settles O39: a bit of the value written is the exclusive or of the operands' bits, and a byte cancels itself. -/
theorem xorIsBitwise : Obligations.XorIsBitwise := by
  refine fun x y s => ⟨fun _ hw => decodeWord_of_wordR (op := 0x8#4) (f := 0x3#4) rfl hw, _, exec_xorReg x y s, ?_, ?_,
    keepsRegsBut_setReg s x _, onlyRegs_setReg s x _⟩
  · intro b _
    rw [State.reg_setReg_same, BitVec.getLsbD_xor]
  · intro hxy
    rw [State.reg_setReg_same, hxy, BitVec.xor_self]

/-! ### Sums and differences with a flag (R87, R88, R90) -/

theorem exec_addCarry (x y : RegIdx) (s : State) : exec (.addCarry x y) s =
    .next (s.setResultFlag x (wrapAdd (s.reg x) (s.reg y)) (carryOut (s.reg x) (s.reg y))) := rfl

theorem exec_subBorrow (x y : RegIdx) (s : State) : exec (.subBorrow x y) s =
    .next (s.setResultFlag x (wrapSub (s.reg x) (s.reg y)) (noBorrow (s.reg x) (s.reg y))) := rfl

theorem exec_subnBorrow (x y : RegIdx) (s : State) : exec (.subnBorrow x y) s =
    .next (s.setResultFlag x (wrapSub (s.reg y) (s.reg x)) (noBorrow (s.reg y) (s.reg x))) := rfl

/-- What the two subtractions share, for a minuend `a` and a subtrahend `b`: the difference and the flag "no borrow". -/
theorem State.setResultFlag_difference (s : State) (x : RegIdx) (a b : Byte) {t : State}
    (ht : t = s.setResultFlag x (wrapSub a b) (noBorrow a b)) :
    (x ≠ 0xF → (t.reg x).toNat = (a.toNat + 256 - b.toNat) % 256) ∧ (a.toNat ≥ b.toNat → t.reg 0xF = 0x01#8) ∧
    (a.toNat < b.toNat → t.reg 0xF = 0x00#8) ∧ KeepsRegsBut (fun r => r = x ∨ r = 0xF) s t ∧ OnlyRegs s t := by
  subst ht
  refine ⟨fun hx => ?_, fun hge => State.flag_setResultFlag_of_true s x _ (noBorrow_eq_true_iff.2 hge),
    fun hlt => State.flag_setResultFlag_of_false s x _ (noBorrow_eq_false_iff.2 hlt), keepsRegsBut_setResultFlag s x _ _,
    onlyRegs_setResultFlag s x _ _⟩
  rw [State.reg_setResultFlag_dest s hx, toNat_wrapSub]

/-- Settles O40: the wrapped sum is the result, and the carry, written last, the flag. -/
theorem addWithCarryGivesSumAndCarry : Obligations.AddWithCarryGivesSumAndCarry := by
  refine fun x y s => ⟨fun _ hw => decodeWord_of_wordR (op := 0x8#4) (f := 0x4#4) rfl hw, _, exec_addCarry x y s,
    fun hx => ?_, fun hgt => State.flag_setResultFlag_of_true s x _ (carryOut_eq_true_iff.2 hgt),
    fun hle => State.flag_setResultFlag_of_false s x _ (carryOut_eq_false_iff.2 hle), keepsRegsBut_setResultFlag s x _ _,
    onlyRegs_setResultFlag s x _ _⟩
  rw [State.reg_setResultFlag_dest s hx, toNat_wrapAdd]

/-- Settles O41: the difference with the minuend `V[x]` and the subtrahend `V[y]`. -/
theorem subWithBorrowGivesDifference : Obligations.SubWithBorrowGivesDifference := fun x y s =>
  ⟨fun _ hw => decodeWord_of_wordR (op := 0x8#4) (f := 0x5#4) rfl hw, _, exec_subBorrow x y s,
    State.setResultFlag_difference s x (s.reg x) (s.reg y) rfl⟩

/-- Settles O43: the difference with the operands of O41 reversed, and the same destination. -/
theorem subnWithBorrowGivesReversedDifference : Obligations.SubnWithBorrowGivesReversedDifference := fun x y s =>
  ⟨fun _ hw => decodeWord_of_wordR (op := 0x8#4) (f := 0x7#4) rfl hw, _, exec_subnBorrow x y s,
    State.setResultFlag_difference s x (s.reg y) (s.reg x) rfl⟩

/-! ### Shifts (R89, R91) -/

theorem exec_shiftRight (x y : RegIdx) (s : State) : exec (.shiftRight x y) s =
    .next (s.setResultFlag x (shiftDown (s.reg x)) (lowBit (s.reg x))) := rfl

theorem exec_shiftLeft (x y : RegIdx) (s : State) : exec (.shiftLeft x y) s =
    .next (s.setResultFlag x (shiftUp (s.reg x)) (highBit (s.reg x))) := rfl

theorem exec_shiftLeft_eq_addCarry (x y : RegIdx) (s : State) : exec (.shiftLeft x y) s = exec (.addCarry x x) s := by
  rw [exec_shiftLeft, exec_addCarry, shiftUp_eq_wrapAdd, highBit_eq_carryOut]

/-- Settles O42: quotient and remainder by 2 are the result and the flag, and the field `y` does not occur in either. -/
theorem shiftRightHalves : Obligations.ShiftRightHalves := by
  refine fun x y s => ⟨fun _ hw => decodeWord_of_wordR (op := 0x8#4) (f := 0x6#4) rfl hw,
    fun z => (exec_shiftRight x z s).trans (exec_shiftRight x y s).symm, _, exec_shiftRight x y s, fun hx => ?_, ?_,
    keepsRegsBut_setResultFlag s x _ _, onlyRegs_setResultFlag s x _ _⟩
  · rw [State.reg_setResultFlag_dest s hx, toNat_shiftDown]
  · rw [State.flag_setResultFlag, toNat_flagByte_lowBit]

/-- Settles O44: the shift is the sum of the register with itself, so the bit it loses is that sum's carry. -/
theorem shiftLeftDoubles : Obligations.ShiftLeftDoubles := by
  refine fun x y s => ⟨fun _ hw => decodeWord_of_wordR (op := 0x8#4) (f := 0xE#4) rfl hw,
    fun z => (exec_shiftLeft x z s).trans (exec_shiftLeft x y s).symm, exec_shiftLeft_eq_addCarry x y s, _,
    exec_shiftLeft x y s, fun hx => ?_, ?_, keepsRegsBut_setResultFlag s x _ _, onlyRegs_setResultFlag s x _ _⟩
  · rw [State.reg_setResultFlag_dest s hx, toNat_shiftUp]
  · rw [State.flag_setResultFlag, toNat_flagByte_highBit]

/-! ### The random byte (R92) -/

theorem exec_randomAnd (x : RegIdx) (kk : Byte) (s : State) :
    exec (.randomAnd x kk) s = .next (s.setReg x (s.nextRand &&& kk)).drawDone := rfl

/-- Settles O45: the masked draw is written as any result is, and the count of draws is the one other field that moves. -/
theorem randomAndMasksOneDraw : Obligations.RandomAndMasksOneDraw := by
  intro x kk s
  obtain ⟨hpc, hindex, hstack, hdisp, hmem, htimers, hfault, hdraws⟩ := onlyRegs_setReg s x (s.nextRand &&& kk)
  refine ⟨fun _ hw => decodeWord_of_wordI (op := 0xC#4) rfl hw, _, exec_randomAnd x kk s, ?_,
    keepsRegsBut_setReg s x _, congrArg (· + 1) hdraws, hpc, hindex, hstack, hdisp, hmem, htimers, hfault⟩
  intro b _
  rw [State.drawDone_reg, State.reg_setReg_same, BitVec.getLsbD_and, State.nextRand]

end Sys2Proof.Machine
end

section
/-! SUPPORT. The index register and the framebuffer engine (43_index_draw.md R100 to R104): what `load-index` and `clear` write, the
closed form of a draw (the cells its 1 bits fall on, each met once since at most 15 rows never wrap onto one another), and a second
draw of the same sprite, which undoes the first by that closed form. -/

namespace Sys2Proof.Machine

/-! ### The index register (R100) -/

theorem exec_loadIndex (nnn : Imm12) (s : State) : exec (.loadIndex nnn) s = .next { s with index := addrOf nnn } := rfl

theorem Effect.index_eq {s t : State} {i : Instr} (h : Effect s i t) (hi : ∀ nnn, i ≠ .loadIndex nnn) : t.index = s.index := by
  cases h with
  | setsIndex nnn => exact absurd rfl (hi nnn)
  | _ => rfl

/-- Settles O46: `load-index` writes the one field, and of the effects of an instruction only its own writes it. -/
theorem loadIndexIsTheOnlyWriterOfIndex : Obligations.LoadIndexIsTheOnlyWriterOfIndex := by
  constructor
  · intro nnn s
    exact ⟨fun _ hw => decodeWord_of_wordA (op := 0xA#4) rfl hw, _, exec_loadIndex nnn s, toNat_addrOf nnn, fun _ => rfl, rfl,
      ⟨rfl, fun _ => rfl⟩, fun _ _ => rfl, keepsRest_of_eq rfl rfl rfl rfl rfl⟩
  · intro i s t hi h
    cases answer_of_exec h with
    | completed he => exact he.index_eq hi
    | raised _ => rfl

/-! ### The blank display (R101) -/

theorem exec_clear (s : State) : exec .clear s = .next { s with disp := Display.blank } := rfl

/-- Settles O47: the display becomes the blank one, whose cells are all off, and no other field is written. -/
theorem clearTurnsEveryCellOff : Obligations.ClearTurnsEveryCellOff :=
  ⟨decodeWord_encode .clear, fun s => ⟨_, exec_clear s, Display.cell_blank, fun _ => rfl, rfl, rfl, ⟨rfl, fun _ => rfl⟩,
    keepsRest_of_eq rfl rfl rfl rfl rfl⟩⟩

/-! ### The cells a sprite covers (R103) -/

/-- Some 1 bit of a sprite row drawn from column `vx` falls on column `c`. -/
def rowCovers (vx : Nat) (row : Byte) (c : Fin 64) : Bool :=
  (List.range 8).any fun j => decide (c = colOf (vx + j)) && spriteBit row j

/-- Some 1 bit of the first `m` sprite rows, drawn from `(vx, vy)`, falls on the cell. -/
def rowsCover (s : State) (vx vy m : Nat) (r : Fin 32) (c : Fin 64) : Bool :=
  (List.range m).any fun i => decide (r = rowOf (vy + i)) && rowCovers vx (s.readByte (spriteAddr s i)) c

theorem rowCovers_iff {vx : Nat} {row : Byte} {c : Fin 64} :
    rowCovers vx row c = true ↔ ∃ j < 8, c = colOf (vx + j) ∧ spriteBit row j = true := by
  simp only [rowCovers, List.any_eq_true, List.mem_range, Bool.and_eq_true, decide_eq_true_eq]

theorem rowsCover_iff {s : State} {vx vy m : Nat} {r : Fin 32} {c : Fin 64} :
    rowsCover s vx vy m r c = true ↔
      ∃ i < m, r = rowOf (vy + i) ∧ rowCovers vx (s.readByte (spriteAddr s i)) c = true := by
  simp only [rowsCover, List.any_eq_true, List.mem_range, Bool.and_eq_true, decide_eq_true_eq]

theorem rowsCover_succ (s : State) (vx vy m : Nat) (r : Fin 32) (c : Fin 64) :
    rowsCover s vx vy (m + 1) r c =
      (rowsCover s vx vy m r c || (decide (r = rowOf (vy + m)) && rowCovers vx (s.readByte (spriteAddr s m)) c)) := by
  simp only [rowsCover, List.range_succ, List.any_append, List.any_cons, List.any_nil, Bool.or_false]

/-- No earlier row of a sprite falls on row `m`'s place: fewer than 32 rows do not wrap around. -/
theorem rowsCover_fresh (s : State) (vx vy : Nat) {m : Nat} (hm : m < 15) (c : Fin 64) :
    rowsCover s vx vy m (rowOf (vy + m)) c = false := by
  rw [← Bool.not_eq_true, rowsCover_iff]
  rintro ⟨i, hi, hrow, -⟩
  exact rowOf_add_ne (Nat.ne_of_gt hi) hm (hi.trans hm) hrow

/-- The whole sprite covers the cells of the closed form. -/
theorem rowsCover_iff_spriteCovers {s : State} {x y : RegIdx} {n : RowCount} {r : Fin 32} {c : Fin 64} :
    rowsCover s (s.reg x).toNat (s.reg y).toNat n.val r c = true ↔ SpriteCovers s x y n r c := by
  simp only [rowsCover_iff, rowCovers_iff, SpriteCovers, Fin.ext_iff, rowOf_val, colOf_val, spriteBit, spriteAddr]
  constructor
  · rintro ⟨i, hi, hr, j, hj, hc, hbit⟩
    exact ⟨i, j, hi, hj, hr, hc, hbit⟩
  · rintro ⟨i, j, hi, hj, hr, hc, hbit⟩
    exact ⟨i, hi, hr, j, hj, hc, hbit⟩

/-! ### What the draw does to the cells, and its flag (R102, R103) -/

theorem cell_drawRow (vx : Nat) (r : Fin 32) (row : Byte) (k : Canvas) (q : Fin 32) (c : Fin 64) :
    Display.cell (drawRow vx r row k).disp q c = (Display.cell k.disp q c ^^ (decide (q = r) && rowCovers vx row c)) := by
  obtain ⟨hown, hother, -⟩ := drawRow_spec vx r row k
  by_cases hq : q = r
  · rw [hq, hown, decide_eq_true rfl, Bool.true_and, rowCovers]
  · rw [hother q c hq, decide_eq_false hq, Bool.false_and, Bool.xor_false]

theorem collision_drawRow_iff (vx : Nat) (r : Fin 32) (row : Byte) (k : Canvas) :
    (drawRow vx r row k).collision = true ↔
      k.collision = true ∨ ∃ c, rowCovers vx row c = true ∧ Display.cell k.disp r c = true := by
  obtain ⟨-, -, hcollision⟩ := drawRow_spec vx r row k
  simp only [hcollision, Bool.or_eq_true, List.any_eq_true, List.mem_range, Bool.and_eq_true, rowCovers_iff]
  refine or_congr_right ⟨?_, ?_⟩
  · rintro ⟨j, hj, hbit, hon⟩
    exact ⟨_, ⟨j, hj, rfl, hbit⟩, hon⟩
  · rintro ⟨_, ⟨j, hj, rfl, hbit⟩, hon⟩
    exact ⟨j, hj, hbit, hon⟩

/-- Up to 15 rows toggle exactly the cells that they cover, each row being drawn where no earlier one was. -/
theorem cell_drawRows (s : State) (vx vy : Nat) (k : Canvas) {m : Nat} (hm : m ≤ 15) (r : Fin 32) (c : Fin 64) :
    Display.cell (drawRows s vx vy m k).disp r c = (Display.cell k.disp r c ^^ rowsCover s vx vy m r c) := by
  induction m with
  | zero => exact (Bool.xor_false _).symm
  | succ m ih =>
    rw [drawRows_succ, cell_drawRow, ih (Nat.le_of_succ_le hm), rowsCover_succ]
    by_cases hr : r = rowOf (vy + m)
    · rw [hr, rowsCover_fresh s vx vy hm, Bool.xor_false, Bool.false_or]
    · rw [decide_eq_false hr, Bool.false_and, Bool.xor_false, Bool.or_false]

/-- Up to 15 rows collide exactly when they cover a cell that was on before the first of them. -/
theorem collision_drawRows_iff (s : State) (vx vy : Nat) (k : Canvas) {m : Nat} (hm : m ≤ 15) :
    (drawRows s vx vy m k).collision = true ↔
      k.collision = true ∨ ∃ r c, rowsCover s vx vy m r c = true ∧ Display.cell k.disp r c = true := by
  induction m with
  | zero => simp [drawRows, rowsCover]
  | succ m ih =>
    have hbefore (c : Fin 64) :
        Display.cell (drawRows s vx vy m k).disp (rowOf (vy + m)) c = Display.cell k.disp (rowOf (vy + m)) c := by
      rw [cell_drawRows s vx vy k (Nat.le_of_succ_le hm), rowsCover_fresh s vx vy hm, Bool.xor_false]
    simp only [drawRows_succ, collision_drawRow_iff, ih (Nat.le_of_succ_le hm), hbefore, rowsCover_succ, Bool.or_eq_true,
      Bool.and_eq_true, decide_eq_true_eq, or_assoc, or_and_right, exists_or, and_assoc, exists_and_left, exists_eq_left]

theorem cell_drawnCanvas (x y : RegIdx) (n : RowCount) (s : State) (r : Fin 32) (c : Fin 64) :
    Display.cell (drawnCanvas x y n s).disp r c =
      (displayView s r c ^^ rowsCover s (s.reg x).toNat (s.reg y).toNat n.val r c) :=
  cell_drawRows s _ _ _ (Nat.le_of_lt_succ n.isLt) r c

theorem collision_drawnCanvas_iff (x y : RegIdx) (n : RowCount) (s : State) :
    (drawnCanvas x y n s).collision = true ↔ ∃ r c, SpriteCovers s x y n r c ∧ displayView s r c = true := by
  simp only [drawnCanvas, displayView, collision_drawRows_iff s _ _ _ (Nat.le_of_lt_succ n.isLt), Bool.false_eq_true, false_or,
    rowsCover_iff_spriteCovers]

theorem spriteOutside_eq_false_iff (s : State) (n : RowCount) : spriteOutside s n = false ↔ SpriteInMemory s n := by
  rw [← Bool.not_eq_true, spriteOutside_iff, SpriteInMemory]
  omega

/-- Settles O48: the canvas toggles the covered cells, and its collision, written into `VF` last, is that one of them was on. -/
theorem drawSpriteTogglesCoveredCells : Obligations.DrawSpriteTogglesCoveredCells := by
  intro x y n s
  refine ⟨fun _ hw => decodeWord_of_wordR (op := 0xD#4) (f := BitVec.ofFin n) rfl hw, fun hin => ?_⟩
  refine ⟨_, execDrawSprite_of_inside x y ((spriteOutside_eq_false_iff s n).2 hin), fun r c hcov => ?_, fun r c hcov => ?_,
    fun hon => ?_, fun hoff => ?_, fun _ hr => State.reg_setReg_of_ne _ _ hr, rfl, rfl, ⟨rfl, fun _ => rfl⟩,
    keepsRest_of_eq rfl rfl rfl rfl rfl⟩
  · exact (cell_drawnCanvas x y n s r c).trans (by rw [rowsCover_iff_spriteCovers.2 hcov, Bool.xor_true])
  · have hcov' := Bool.eq_false_of_not_eq_true (mt rowsCover_iff_spriteCovers.1 hcov)
    exact (cell_drawnCanvas x y n s r c).trans (by rw [hcov', Bool.xor_false])
  · rw [State.reg_setReg_same, (collision_drawnCanvas_iff x y n s).2 hon, flagByte_true]
  · have hoff' := Bool.eq_false_of_not_eq_true (mt (collision_drawnCanvas_iff x y n s).1 hoff)
    rw [State.reg_setReg_same, hoff', flagByte_false]

/-! ### The second draw (R104) -/

/-- What a sprite covers depends on its coordinates, `I` and memory alone. -/
theorem spriteCovers_congr {s u : State} {x y : RegIdx} (hx : u.reg x = s.reg x) (hy : u.reg y = s.reg y)
    (hindex : u.index = s.index) (hmem : u.mem = s.mem) (n : RowCount) (r : Fin 32) (c : Fin 64) :
    SpriteCovers u x y n r c ↔ SpriteCovers s x y n r c := by
  simp only [SpriteCovers, State.readByte, hx, hy, hindex, hmem]

/-- Settles O50, by O48 for both draws: they cover the same cells, so a covered cell is toggled twice, and the second draw finds
it on exactly when the first found it off. -/
theorem doubleDrawRestoresDisplay : Obligations.DoubleDrawRestoresDisplay := by
  intro x y n s t u hin hfirst hdisp hx hy hindex hmem
  have hcovers := spriteCovers_congr hx hy hindex hmem n
  have hinu : SpriteInMemory u n := by rwa [SpriteInMemory, hindex]
  obtain ⟨-, hdraw⟩ := drawSpriteTogglesCoveredCells x y n s
  obtain ⟨t', ht', htoggled, hkept, -⟩ := hdraw hin
  obtain rfl : t = t' := Host.Outcome.next.inj (hfirst.symm.trans ht')
  obtain ⟨-, hdraw'⟩ := drawSpriteTogglesCoveredCells x y n u
  obtain ⟨v, hv, htoggled', hkept', hflagOn, hflagOff, -⟩ := hdraw' hinu
  have hbetween (r : Fin 32) (c : Fin 64) : displayView u r c = displayView t r c := congrArg (Display.cell · r c) hdisp
  have hfound : (∃ r c, SpriteCovers u x y n r c ∧ displayView u r c = true) ↔
      ∃ r c, SpriteCovers s x y n r c ∧ displayView s r c = false := by
    refine exists₂_congr fun r c => ?_
    rw [hcovers, and_congr_right_iff]
    intro hcov
    rw [hbetween, htoggled r c hcov, Bool.not_eq_true']
  refine ⟨v, hv, fun r c => ?_, fun hv1 => ?_, fun hoff => hflagOn (hfound.2 hoff)⟩
  · by_cases hcov : SpriteCovers s x y n r c
    · rw [htoggled' r c ((hcovers r c).2 hcov), hbetween, htoggled r c hcov, Bool.not_not]
    · rw [hkept' r c (mt (hcovers r c).1 hcov), hbetween, hkept r c hcov]
  · by_contra hnone
    have hv0 := hflagOff (mt hfound.1 hnone)
    exact absurd (hv1.symm.trans hv0) (by decide)

end Sys2Proof.Machine
end

section
/-! SUPPORT. What a fault and an instruction leave alone (60_exceptions.md R110 to R123): a faulting cycle writes the record and, past
the fetch, `pc`; no instruction looks at a timer; an image that does not fit is refused. -/

namespace Sys2Proof.Machine

/-! ### A faulting cycle (R111, R119) -/

/-- `CapacityError` is the host's: no check of an instruction raises it (R110, R116). -/
theorem FailedCheck.code_ne_capacityError {s : State} {c : FaultCode} {i : Instr} (h : FailedCheck s c i) :
    c ≠ .capacityError := by
  cases h <;> exact nofun

/-- Settles O11, by the four ways a cycle goes: the three that raise latch a record at the old `pc`, and a completed cycle latches
none. -/
theorem faultingCycleIsPrecise : Obligations.FaultingCycleIsPrecise := by
  intro s t r h ht
  obtain ⟨hs, hcycle⟩ := cycleOutcome_of_step h
  cases hcycle with
  | fetchRaises _ =>
    obtain rfl := Option.some.inj ht
    exact ⟨rfl, nofun, .inl rfl⟩
  | decodeRaises _ _ =>
    obtain rfl := Option.some.inj ht
    exact ⟨rfl, nofun, .inr rfl⟩
  | execRaises _ _ hc =>
    obtain rfl := Option.some.inj ht
    exact ⟨rfl, hc.code_ne_capacityError, .inr rfl⟩
  | completes _ _ he =>
    have hnone := he.fault_eq.trans hs
    cases hnone.symm.trans ht

/-! ### The timers (R16, R17, R123) -/

/-- In the state `s` the operation answers a next state, and it carries any other timer values through. -/
def BlindToTimers (op : State → Host.Outcome State Fault Refusal) (s : State) : Prop :=
  ∃ t, op s = .next t ∧ ∀ d e : Byte, op { s with dt := d, st := e } = .next { t with dt := d, st := e }

theorem execRet_blindToTimers (s : State) : BlindToTimers execRet s := by
  by_cases hsp : s.sp = 0
  · exact ⟨_, execRet_of_empty hsp, fun d e => execRet_of_empty (s := { s with dt := d, st := e }) hsp⟩
  · exact ⟨_, execRet_of_entry hsp (by omega), fun d e => execRet_of_entry (s := { s with dt := d, st := e }) hsp _⟩

theorem execCall_blindToTimers (nnn : Imm12) (s : State) : BlindToTimers (execCall nnn) s := by
  by_cases hsp : s.sp.val < 16
  · exact ⟨_, execCall_of_room nnn hsp, fun d e => execCall_of_room (s := { s with dt := d, st := e }) nnn hsp⟩
  · exact ⟨_, execCall_of_full nnn hsp, fun d e => execCall_of_full (s := { s with dt := d, st := e }) nnn hsp⟩

theorem execDrawSprite_blindToTimers (x y : RegIdx) (n : RowCount) (s : State) : BlindToTimers (execDrawSprite x y n) s := by
  cases hout : spriteOutside s n with
  | false =>
    exact ⟨_, execDrawSprite_of_inside x y hout,
      fun d e => execDrawSprite_of_inside (s := { s with dt := d, st := e }) x y hout⟩
  | true =>
    exact ⟨_, execDrawSprite_of_outside x y hout,
      fun d e => execDrawSprite_of_outside (s := { s with dt := d, st := e }) x y hout⟩

/-- A skip moves `pc` alone, whatever the condition. -/
theorem skipWhen_blindToTimers (taken : Bool) (s : State) : BlindToTimers (fun u => .next (skipWhen taken u)) s :=
  ⟨_, rfl, fun _ _ => by cases taken <;> rfl⟩

/-- Settles O55: the three instructions with a check of their own split on it, which no timer enters; a skip's condition is over
registers; every other instruction has no condition, and its one effect names no timer. -/
theorem noInstructionStopsOrSeesTimers : Obligations.NoInstructionStopsOrSeesTimers := by
  intro i s
  cases i with
  | ret => exact execRet_blindToTimers s
  | call nnn => exact execCall_blindToTimers nnn s
  | drawSprite x y n => exact execDrawSprite_blindToTimers x y n s
  | skipEqImm x kk => exact skipWhen_blindToTimers (s.reg x == kk) s
  | skipNeImm x kk => exact skipWhen_blindToTimers (s.reg x != kk) s
  | skipEqReg x y => exact skipWhen_blindToTimers (s.reg x == s.reg y) s
  | skipNeReg x y => exact skipWhen_blindToTimers (s.reg x != s.reg y) s
  | _ => exact ⟨_, rfl, fun _ _ => rfl⟩

/-! ### An oversized image (R116) -/

/-- Settles O21: of the two ways `load` goes, the length excludes the one that copies. -/
theorem oversizedImageIsRefused : Obligations.OversizedImageIsRefused := by
  intro image s hlong
  obtain ⟨hfits, -⟩ | ⟨-, hrefused⟩ := load_cases image s
  · exact absurd hfits (Nat.not_le.2 hlong)
  · exact hrefused

end Sys2Proof.Machine
end

section
/-! SUPPORT. Reset and load (70_reset_and_hazards.md R130, R131): the value of every element after reset, what the host's `Reset`
restores, and what loading an image writes. -/

namespace Sys2Proof.Machine

/-! ### The values at reset (R130) -/

theorem Memory.unlisted_glyph {k : Nat} (hk : k < 80) : Memory.unlisted (0x050 + k) = Config.glyphByte k := by
  have hin : Config.glyphBase ≤ 0x050 + k ∧ 0x050 + k < Config.glyphEnd :=
    ⟨Nat.le_add_right _ _, Nat.add_lt_add_left hk 0x050⟩
  rw [Memory.unlisted, if_pos hin, Nat.add_sub_cancel_left]

theorem Memory.unlisted_outside_glyphs {a : Nat} (ha : a < 0x050 ∨ 0x0A0 ≤ a) : Memory.unlisted a = 0x00#8 :=
  if_neg fun ⟨hlo, hhi⟩ => ha.elim (Nat.not_lt.2 hlo) (Nat.not_le.2 hhi)

/-- The reset memory lists nothing, so it reads as the reset contents (R19, R31). -/
theorem readByte_reset (a : Nat) : State.reset.readByte a = Memory.unlisted a := rfl

theorem reg_reset (r : RegIdx) : State.reset.reg r = 0x00#8 := Vector.getElem_replicate r.isLt

theorem stack_reset (k : Fin 16) : State.reset.stack[k.val] = 0x0000#16 := Vector.getElem_replicate k.isLt

theorem displayView_reset (r : Fin 32) (c : Fin 64) : displayView State.reset r c = false := Display.cell_blank r c

/-- Settles O18, element by element: registers, stack and display are constant vectors, and memory reads as the reset contents, which
split at the bounds of the glyph table. -/
theorem resetStateValues : Obligations.ResetStateValues := by
  refine ⟨reg_reset, rfl, rfl, stack_reset, rfl, rfl, rfl, displayView_reset, rfl, fun k hk => ?_, fun a ha => ?_⟩
  · exact (readByte_reset _).trans (Memory.unlisted_glyph hk)
  · exact (readByte_reset a).trans (Memory.unlisted_outside_glyphs (ha.imp_right And.left))

/-- Settles O19: `Reset` reads nothing of the state it is called in but the count of draws, so a latched record is gone. -/
theorem hostResetRestoresReset : Obligations.HostResetRestoresReset := fun _ => ⟨rfl, rfl⟩

/-! ### Loading an image (R131) -/

/-- `load` writes memory alone. -/
theorem onlyMem_of_load {image : List Byte} {s t : State} (h : load image s = .ok t) : t = { s with mem := t.mem } := by
  obtain ⟨-, e⟩ | ⟨-, e⟩ := load_cases image s
  · obtain rfl := Except.ok.inj (e.symm.trans h)
    rfl
  · cases e.symm.trans h

/-- The refusal of R116 is for longer images alone. -/
theorem load_of_fits {image : List Byte} (s : State) (hlen : image.length ≤ 3584) : ∃ t, load image s = .ok t := by
  obtain ⟨-, e⟩ | ⟨hlong, -⟩ := load_cases image s
  · exact ⟨_, e⟩
  · exact absurd hlen (Nat.not_le.2 hlong)

theorem readByte_of_load_inside {image : List Byte} {s t : State} (hs : Memory.wf s.mem = true) (h : load image s = .ok t)
    {k : Nat} (hk : k < image.length) : t.readByte (0x200 + k) = image[k] := by
  rw [readByte_of_load hs h, if_pos (Nat.le_add_right _ _), Nat.add_sub_cancel_left, List.getElem?_eq_getElem hk, Option.getD_some]

theorem readByte_of_load_outside {image : List Byte} {s t : State} (hs : Memory.wf s.mem = true) (h : load image s = .ok t)
    {a : Nat} (ha : a < 0x200 ∨ 0x200 + image.length ≤ a) : t.readByte a = s.readByte a := by
  rw [readByte_of_load hs h]
  obtain hbelow | habove := ha
  · exact if_neg (Nat.not_le.2 hbelow)
  · rw [List.getElem?_eq_none (Nat.le_sub_of_add_le' habove), Option.getD_none, ite_self]

/-- Settles O20: the length selects the way `load` copies; it writes memory alone, and an address reads the image's byte exactly when
it lies inside the image. -/
theorem loadCopiesImageVerbatim : Obligations.LoadCopiesImageVerbatim := by
  intro image s hs hlen
  obtain ⟨t, h⟩ := load_of_fits s hlen
  exact ⟨t, h, onlyMem_of_load h, load_keeps_wf hs h, fun _ hk => readByte_of_load_inside hs h hk,
    fun _ ha => readByte_of_load_outside hs h ha⟩

end Sys2Proof.Machine
end
